-- ==== Sys2Proof/Word.lean ====
section
/-! DEFINITION. The one value type of the machine (10_state.md R21): a signed integer of XLEN = 64 bits.

A cell, an input value, an output value, a parameter, an instruction word and `rb` are each one member of I64. The model
holds it as a 64-bit word (allowed by 20_memory.md R57) and every rule reads it through `BitVec.toInt`, the integer it
stands for; no rule reads a bit or a byte of it (log 1). -/

namespace Sys2Proof

/-- One member of I64 (10_state.md R21), read as the integer `BitVec.toInt`. -/
abbrev Word := BitVec 64

/-- `v ∈ I64` for an exact integer (00_scope.md R7): `-2^63 ≤ v ≤ 2^63 - 1`. -/
def isI64 (v : Int) : Bool := decide (-2 ^ 63 ≤ v) && decide (v ≤ 2 ^ 63 - 1)

end Sys2Proof
end

