-- ==== Sys2Proof/Syntax.lean ====
section
/-! DEFINITION. The instruction set as decoded syntax: the three addressing modes (30_encoding.md R81) and the ten
instructions of 30_encoding.md R86, each with one mode per parameter.

A decoded instruction holds no parameter cell: `Decode(w)` reads nothing but the instruction word (30_encoding.md R87), and
the parameters are fetched when the operands are resolved (40_operands.md R115), so that a bad parameter cell faults in
its place in the order of 60_exceptions.md R223. -/

namespace Sys2Proof

/-- An addressing mode, the meaning of one decimal mode digit (30_encoding.md R81, R90). -/
inductive Mode
  /-- Digit 0: "operand is an address". -/
  | position
  /-- Digit 1: "operand is a literal, write-illegal". -/
  | immediate
  /-- Digit 2: "operand is an address offset by `relative_base`". -/
  | relative
  deriving DecidableEq, Repr

/-- The ten instructions (30_encoding.md R86), with the mode of each parameter in parameter order. The role of a
parameter, read or write, is fixed by the constructor and the place (30_encoding.md R84): the fields named `dst` are the
write parameters. -/
inductive Instr
  /-- Opcode 1, format RRW (41_arithmetic.md R130). -/
  | add (a b dst : Mode)
  /-- Opcode 2, format RRW (41_arithmetic.md R131). -/
  | multiply (a b dst : Mode)
  /-- Opcode 3, format W (42_io.md R140). -/
  | input (dst : Mode)
  /-- Opcode 4, format R (42_io.md R141). -/
  | output (a : Mode)
  /-- Opcode 5, format RR (43_jumps.md R150). -/
  | jumpIfTrue (a target : Mode)
  /-- Opcode 6, format RR (43_jumps.md R151). -/
  | jumpIfFalse (a target : Mode)
  /-- Opcode 7, format RRW (44_compare.md R160). -/
  | lessThan (a b dst : Mode)
  /-- Opcode 8, format RRW (44_compare.md R161). -/
  | equals (a b dst : Mode)
  /-- Opcode 9, format R (45_adjust_base.md R170). -/
  | adjustBase (a : Mode)
  /-- Opcode 99, format N (46_halt.md R175). -/
  | halt
  deriving DecidableEq, Repr

end Sys2Proof
end

