-- ==== Sys2Proof/WellFormed.lean ====
section
/-! DEFINITION. Which decoded instructions an instruction word can stand for: a write parameter is never in immediate
mode (30_encoding.md R88). Every other combination of modes is legal (30_encoding.md R85). -/

namespace Sys2Proof

/-- A mode a write parameter may have: position or relative (30_encoding.md R85, R88). -/
def Mode.writable : Mode → Bool
  | .position => true
  | .immediate => false
  | .relative => true

/-- The one check of 30_encoding.md R88 on an instruction: its write parameter, if it has one, is not immediate. -/
def Instr.wf : Instr → Bool
  | .add _ _ dst => dst.writable
  | .multiply _ _ dst => dst.writable
  | .input dst => dst.writable
  | .output _ => true
  | .jumpIfTrue _ _ => true
  | .jumpIfFalse _ _ => true
  | .lessThan _ _ dst => dst.writable
  | .equals _ _ dst => dst.writable
  | .adjustBase _ => true
  | .halt => true

end Sys2Proof
end

