-- ==== Sys2Proof/Decode.lean ====
section
/-! DEFINITION. The decoder of 30_encoding.md R87, total on every word and reading nothing but the word, and after it the
encoder of 30_encoding.md R94 (d).

The instruction word is decoded as a DECIMAL number (30_encoding.md R81). `decodeTableWord` reads an instruction laid out
as bits the way opcode_table.json would number them: the table gives none, so cell k of the instruction is bits
64k+63 .. 64k, the instruction word first (log 6). -/

namespace Sys2Proof

/-- Why a word is no instruction (30_encoding.md R87). -/
inductive DecodeError
  /-- A negative word, or an opcode not in 1..9, 99 (30_encoding.md R82, R89). -/
  | unknownOpcode
  /-- Mode digit 3..9 on parameter `p` (30_encoding.md R90). -/
  | illegalMode (p : Nat)
  /-- Mode digit 1 on the write parameter `p` (30_encoding.md R88). -/
  | illegalWriteMode (p : Nat)
  deriving DecidableEq, Repr

/-- `digit(n, k) = (n div 10^k) mod 10` (00_scope.md R8). -/
def digit (n k : Nat) : Nat := n / 10 ^ k % 10

/-- The mode a mode digit names; none for the reserved digits 3..9 (30_encoding.md R90). -/
def modeOfDigit : Nat → Option Mode
  | 0 => some .position
  | 1 => some .immediate
  | 2 => some .relative
  | _ => none

/-- The mode of read parameter `p`: `digit(w, p + 1)`, refused when 3 or more (30_encoding.md R87). -/
def readMode (n p : Nat) : Except DecodeError Mode :=
  match modeOfDigit (digit n (p + 1)) with
  | some m => .ok m
  | none => .error (.illegalMode p)

/-- The mode of write parameter `p`: as a read parameter's, and immediate mode refused (30_encoding.md R87, R88). -/
def writeMode (n p : Nat) : Except DecodeError Mode :=
  match modeOfDigit (digit n (p + 1)) with
  | some .immediate => .error (.illegalWriteMode p)
  | some m => .ok m
  | none => .error (.illegalMode p)

/-- Format R: one read parameter (30_encoding.md R85). -/
def decodeR (mk : Mode → Instr) (n : Nat) : Except DecodeError Instr :=
  match readMode n 1 with
  | .error e => .error e
  | .ok a => .ok (mk a)

/-- Format W: one write parameter. -/
def decodeW (mk : Mode → Instr) (n : Nat) : Except DecodeError Instr :=
  match writeMode n 1 with
  | .error e => .error e
  | .ok a => .ok (mk a)

/-- Format RR: two read parameters, examined in ascending order. -/
def decodeRR (mk : Mode → Mode → Instr) (n : Nat) : Except DecodeError Instr :=
  match readMode n 1 with
  | .error e => .error e
  | .ok a =>
    match readMode n 2 with
    | .error e => .error e
    | .ok b => .ok (mk a b)

/-- Format RRW: two read parameters and a write parameter, examined in ascending order. -/
def decodeRRW (mk : Mode → Mode → Mode → Instr) (n : Nat) : Except DecodeError Instr :=
  match readMode n 1 with
  | .error e => .error e
  | .ok a =>
    match readMode n 2 with
    | .error e => .error e
    | .ok b =>
      match writeMode n 3 with
      | .error e => .error e
      | .ok c => .ok (mk a b c)

/-- The opcode map (30_encoding.md R86) on a non-negative word: `n mod 100` selects the format. -/
def decodeNat (n : Nat) : Except DecodeError Instr :=
  match n % 100 with
  | 1 => decodeRRW .add n
  | 2 => decodeRRW .multiply n
  | 3 => decodeW .input n
  | 4 => decodeR .output n
  | 5 => decodeRR .jumpIfTrue n
  | 6 => decodeRR .jumpIfFalse n
  | 7 => decodeRRW .lessThan n
  | 8 => decodeRRW .equals n
  | 9 => decodeR .adjustBase n
  | 99 => .ok .halt
  | _ => .error .unknownOpcode

/-- `Decode(w)` (30_encoding.md R87): every negative word is refused before any digit is read (R82). -/
def decode (w : Word) : Except DecodeError Instr :=
  if w.toInt < 0 then .error .unknownOpcode else decodeNat w.toNat

/-- The digit that names a mode (30_encoding.md R81). -/
def Mode.digit : Mode → Nat
  | .position => 0
  | .immediate => 1
  | .relative => 2

/-- The opcode of an instruction (30_encoding.md R86). -/
def Instr.opcode : Instr → Nat
  | .add _ _ _ => 1
  | .multiply _ _ _ => 2
  | .input _ => 3
  | .output _ => 4
  | .jumpIfTrue _ _ => 5
  | .jumpIfFalse _ _ => 6
  | .lessThan _ _ _ => 7
  | .equals _ _ _ => 8
  | .adjustBase _ => 9
  | .halt => 99

/-- The modes of an instruction's parameters, in parameter order. -/
def Instr.modes : Instr → List Mode
  | .add a b dst => [a, b, dst]
  | .multiply a b dst => [a, b, dst]
  | .input dst => [dst]
  | .output a => [a]
  | .jumpIfTrue a target => [a, target]
  | .jumpIfFalse a target => [a, target]
  | .lessThan a b dst => [a, b, dst]
  | .equals a b dst => [a, b, dst]
  | .adjustBase a => [a]
  | .halt => []

/-- `L`, the length of an instruction in cells: one for the word and one per parameter (30_encoding.md R80, R85). -/
def Instr.length (i : Instr) : Nat := 1 + i.modes.length

/-- The mode digits of parameters 1, 2, … as one number, the first parameter's digit lowest. -/
def modesNumber : List Mode → Nat
  | [] => 0
  | m :: ms => m.digit + 10 * modesNumber ms

/-- `w = opcode + 100*m1 + 1000*m2 + 10000*m3` (30_encoding.md R94 d), as a number. -/
def encodeNat (i : Instr) : Nat := i.opcode + 100 * modesNumber i.modes

/-- The instruction word of an instruction, every ignored digit 0. -/
def encode (i : Instr) : Word := BitVec.ofNat 64 (encodeNat i)

/-- Cell `k` of an instruction laid out as a number, 64 bits a cell, the instruction word lowest. -/
def tableCell (nbits w k : Nat) : Word := BitVec.ofNat 64 (w % 2 ^ nbits / 2 ^ (64 * k))

/-- The instruction the decoder reads from an instruction whose bits are `w`: its word is cell 0, and the decoder reads
no other cell (30_encoding.md R87). -/
def decodeTableWord (nbits w : Nat) : Option Instr :=
  match decode (tableCell nbits w 0) with
  | .ok i => some i
  | .error _ => none

end Sys2Proof
end

