-- ==== Sys2Proof/Machine/Flags.lean ====
section
/-! DEFINITION. The three arithmetic functions of the machine (41_arithmetic.md R132 b), and what stands in the place of
flags. There ARE no flags, condition codes or predicates (10_state.md R30): an overflow records nothing, a comparison
writes a truth value to memory (44_compare.md R162) and a jump tests the value of an operand (43_jumps.md R150). -/

namespace Sys2Proof.Machine

/-- `wrap64(z)`: the one I64 value congruent to the exact integer `z` modulo 2^64 (00_scope.md R7). -/
def wrap64 (z : Int) : Word := BitVec.ofInt 64 z

/-- The sum, exact and then wrapped (41_arithmetic.md R130, R132 c; decision D2). -/
def wrapSum (a b : Word) : Word := wrap64 (a.toInt + b.toInt)

/-- The product, exact and then wrapped (41_arithmetic.md R131, R132 c; decision D2). -/
def wrapProduct (a b : Word) : Word := wrap64 (a.toInt * b.toInt)

/-- The truth values: exactly 1 and 0 (44_compare.md R162). -/
def truthWord (b : Bool) : Word := if b then 1 else 0

/-- Signed comparison, decided on the integers (44_compare.md R160, 41_arithmetic.md R132 f). -/
def lessThanWord (a b : Word) : Word := truthWord (decide (a.toInt < b.toInt))

/-- Equality of the two values as integers (44_compare.md R161). -/
def equalsWord (a b : Word) : Word := truthWord (decide (a.toInt = b.toInt))

/-- The condition of the jumps: any non-zero value is true (43_jumps.md R150, 44_compare.md R162). -/
def isNonZero (a : Word) : Bool := decide (a.toInt ≠ 0)

end Sys2Proof.Machine
end

