-- ==== Sys2Proof/Config.lean ====
section
/-! DEFINITION. What one machine fixes for good (00_scope.md R6): the address ceiling `ADDR_LIMIT`.

The other parameters of 00_scope.md R6 are arguments of host calls: IMAGE of `create`, POLICY and BUDGET of `run`
(Machine/State.lean, HostCall). The spec leaves no value undefined (93_implementation_defined.md), so there is no free
value here. -/

namespace Sys2Proof

/-- The constants of a machine. Every state carries them (log 2) and no step changes them (10_state.md R33). -/
structure Config where
  /-- `ADDR_LIMIT`, the exclusive ceiling of the address space (20_memory.md R52). -/
  addrLimit : Nat
  deriving DecidableEq, Repr

/-- `1 ≤ ADDR_LIMIT ≤ 2^63` (00_scope.md R6). -/
def Config.wf (c : Config) : Bool := decide (1 ≤ c.addrLimit) && decide (c.addrLimit ≤ 2 ^ 63)

/-- The default of 00_scope.md R6: every non-negative cell value is an address. -/
def Config.standard : Config := { addrLimit := 2 ^ 63 }

end Sys2Proof
end

