-- ==== Sys2Proof/Machine/State.lean ====
section
/-! DEFINITION. The whole state of one machine (10_state.md section 1) as plain data, the host's calls still to come and
what the host got (48_host_operations.md R207), the reasons a step can stop, and the state after reset. -/

namespace Sys2Proof.Machine

/-- The memory array (10_state.md R24) as the list of its non-zero cells, addresses strictly rising; every unlisted cell
reads 0 (20_memory.md R53). `Memory.wf` (Machine/Ops.lean) says so. A cell is a word, never bytes (20_memory.md R57). -/
abbrev Memory := List (Nat × Word)

/-- `status` (10_state.md R28). -/
inductive Status
  /-- The core may step. -/
  | running
  /-- The last run ended at an `input` instruction with an empty queue under the streaming policy. -/
  | blocked
  /-- A halt instruction was executed: the source's `done_flag`. -/
  | halted
  /-- A fault was raised and is recorded in `fault`. -/
  | faulted
  deriving DecidableEq, Repr

/-- The six faults of the machine (60_exceptions.md R220). They are the machine's own exceptions: each is TAKEN, in a next
state (R222), and none of them stops the model. -/
inductive FaultKind
  | unknownOpcode
  | illegalWriteMode
  | negativeAddress
  | illegalMode
  | capacityExceeded
  | inputExhausted
  deriving DecidableEq, Repr

/-- The fault record (10_state.md R29). -/
structure FaultInfo where
  /-- Which of the six faults. -/
  kind : FaultKind
  /-- Its code number, 1 to 6 (60_exceptions.md R220). -/
  code : Nat
  /-- `at_pc`: the pc at the start of the faulting step. -/
  atPc : Int
  /-- The instruction word fetched, none when the fetch itself faulted. -/
  word : Option Word
  /-- The index 1..3 of the parameter at fault, or none. -/
  param : Option Nat
  deriving DecidableEq, Repr

/-- What `raise F(p)` names (00_scope.md R9): the fault, and the parameter at fault if there is one. -/
structure Trap where
  kind : FaultKind
  param : Option Nat
  deriving DecidableEq, Repr

/-- `POLICY` (00_scope.md R6): what `input` does on an empty queue (42_io.md R140). -/
inductive Policy
  | batch
  | streaming
  deriving DecidableEq, Repr

/-- A run in progress: its two arguments, forgotten when it returns (10_state.md R33), and the two hidden counts of
10_state.md R32 (b) and (c). -/
structure Run where
  policy : Policy
  /-- `BUDGET`: none when omitted, any integer otherwise (00_scope.md R6). -/
  budget : Option Int
  /-- The instructions retired in this run (47_dispatch_loop.md R183, R184 e). -/
  executed : Nat
  /-- The length of `out` when the run began (47_dispatch_loop.md R183, R186). -/
  mark : Nat
  deriving DecidableEq, Repr

/-- Why a run returned (47_dispatch_loop.md R185). `fault` carries the fault record of the state, as `Fault(fault)` does
in 47_dispatch_loop.md R183. -/
inductive RunOutcome
  | halted
  | blockedOnInput
  | budgetExhausted
  | fault (record : Option FaultInfo)
  deriving DecidableEq, Repr

/-- A checkpoint (10_state.md R34). `addrLimit` is the domain of the snapshot, which is a function on
0 .. ADDR_LIMIT-1 (log 11). -/
structure Checkpoint where
  addrLimit : Nat
  memorySnapshot : Memory
  programCounter : Int
  relativeBase : Word
  doneFlag : Bool
  deriving DecidableEq, Repr

/-- What the host can inspect between runs (48_host_operations.md R206). -/
inductive Probe
  | cell (addr : Int)
  | pc
  | rb
  | status
  | fault
  | inq
  | out
  deriving DecidableEq, Repr

/-- The host operations of 48_host_operations.md R207. An image is a list of exact integers, because `create` refuses one
that holds a value outside I64 (R200). -/
inductive HostCall
  | create (image : List Int)
  | pushInput (v : Word)
  | run (policy : Policy) (budget : Option Int)
  | drainOutput
  | reset
  | save
  | restore (c : Checkpoint)
  | inspect (what : Probe)
  deriving DecidableEq, Repr

/-- What the host gets back: the third column of 48_host_operations.md R207. A call that gives the host nothing appends no
reply. -/
inductive HostReply
  /-- `create` made a machine. -/
  | created
  /-- `create` or `restore` was refused, or `inspect` named no address: nothing changed. -/
  | refused
  /-- A run returned `(outcome, out_new)`. -/
  | ran (outcome : RunOutcome) (outNew : List Word)
  /-- `drain_output` returned the log. -/
  | drained (log : List Word)
  /-- `save` returned a checkpoint. -/
  | saved (c : Checkpoint)
  /-- `inspect` of a cell or of `rb`. -/
  | word (v : Word)
  /-- `inspect` of `pc`. -/
  | integer (v : Int)
  /-- `inspect` of `status`. -/
  | statusIs (v : Status)
  /-- `inspect` of `fault`. -/
  | faultIs (v : Option FaultInfo)
  /-- `inspect` of `inq` or of `out`. -/
  | words (v : List Word)
  deriving DecidableEq, Repr

/-- The whole state of one machine (10_state.md section 1), with the constant of the machine (log 2), the run in progress
(log 3), the host's calls still to come and the host's replies (log 4). -/
structure State where
  /-- `ADDR_LIMIT`, a constant of the machine (10_state.md R33); nothing writes it (log 2). -/
  cfg : Config
  /-- The program image given at create; only reset reads it (10_state.md R25). -/
  image : List Word
  /-- The memory array (10_state.md R24). -/
  mem : Memory
  /-- The program counter, an exact integer (10_state.md R22). -/
  pc : Int
  /-- The relative base, one I64 (10_state.md R23). -/
  rb : Word
  /-- 10_state.md R28. -/
  status : Status
  /-- The fault record, none when no fault is recorded (10_state.md R29). -/
  fault : Option FaultInfo
  /-- The input queue, head first (10_state.md R26). -/
  inq : List Word
  /-- The output log, oldest first (10_state.md R27). -/
  out : List Word
  /-- The run in progress; none between runs (10_state.md R32, R33; log 3). -/
  run : Option Run
  /-- MODEL's own: the host's calls still to come, oldest first (log 4). -/
  calls : List HostCall
  /-- MODEL's own: what the host got so far, oldest first (log 4). -/
  replies : List HostReply
  deriving DecidableEq, Repr

/-- Reasons the MODEL stops without a next state. The machine's own faults (FaultKind) are not among them: they are taken
in a next state. -/
inductive Fault
  /-- Raised by the meaning of `input` on an empty queue when no run is in progress, so that there is no policy to follow
  (00_scope.md R11: the core executes only inside a run). SAFE: `step` executes an instruction only inside a run, so no
  step raises it (log 8). -/
  | noRunInProgress
  deriving DecidableEq, Repr

/-- Reasons the MODEL has no meaning for an instruction. -/
inductive Refusal
  /-- An instruction of the table without a meaning in Dispatch.lean. SAFE. Raised by no arm: all ten have theirs. -/
  | notModelled (mnemonic : String)
  deriving DecidableEq, Repr

/-- The machine right after `create` of the EMPTY image with the default ADDR_LIMIT (10_state.md R35, 48_host_operations.md
R200: the empty image is legal), no run in progress and no call pending. How a program comes to run from it: log 5. -/
def State.reset : State where
  cfg := Config.standard
  image := []
  mem := []
  pc := 0
  rb := 0
  status := .running
  fault := none
  inq := []
  out := []
  run := none
  calls := []
  replies := []

end Sys2Proof.Machine
end

