-- ==== Sys2Proof/Machine/Ops.lean ====
section
/-! DEFINITION. The named operations over the state: memory cells (20_memory.md R54, R55), the address checks, fetching
the instruction word (47_dispatch_loop.md R181), retiring an instruction (10_state.md R22), returning from a run
(47_dispatch_loop.md R183), and TAKING A FAULT (60_exceptions.md R222).

There is no return from a fault inside the machine (60_exceptions.md R224): a Faulted machine is left only by the host's
`reset` and `restore`, in Machine/HostCalls.lean. -/

namespace Sys2Proof.Machine

/-! ## Memory cells -/

/-- What a cell holds that nothing has written (20_memory.md R53). -/
def Memory.unlisted : Word := 0

/-- The value of the cell at `a`. -/
def Memory.read : Memory → Nat → Word
  | [], _ => Memory.unlisted
  | (k, x) :: m, a => if k = a then x else Memory.read m a

/-- The memory with the cell at `a` holding `v`, every other cell unchanged (20_memory.md R55), in canonical form: writing
the value an unlisted cell holds removes the entry. -/
def Memory.write : Memory → Nat → Word → Memory
  | [], a, v => if v = Memory.unlisted then [] else [(a, v)]
  | (k, x) :: m, a, v =>
    if a < k then
      if v = Memory.unlisted then (k, x) :: m else (a, v) :: (k, x) :: m
    else if a = k then
      if v = Memory.unlisted then m else (a, v) :: m
    else (k, x) :: Memory.write m a v

/-- The canonical form: addresses strictly rising, and no entry equal to what an unlisted cell holds. -/
abbrev Memory.wf (m : Memory) : Prop :=
  m.Pairwise (fun c d => c.1 < d.1) ∧ ∀ c ∈ m, c.2 ≠ Memory.unlisted

/-- Every listed address is below the ceiling (10_state.md R24). -/
abbrev Memory.below (m : Memory) (limit : Nat) : Prop := ∀ c ∈ m, c.1 < limit

/-- Memory holding `vs` in the cells from `a` on and 0 elsewhere (48_host_operations.md R200). -/
def Memory.ofImage : Nat → List Word → Memory
  | _, [] => []
  | a, v :: vs =>
    if v = Memory.unlisted then Memory.ofImage (a + 1) vs else (a, v) :: Memory.ofImage (a + 1) vs

/-! ## Addresses and accesses -/

/-- The checks of 20_memory.md R54 on an exact integer address, naming the parameter at fault. An address is never
reduced modulo anything (20_memory.md R52). -/
def State.checkAddr (s : State) (a : Int) (param : Option Nat) : Except Trap Nat :=
  if a < 0 then .error { kind := .negativeAddress, param := param }
  else if (s.cfg.addrLimit : Int) ≤ a then .error { kind := .capacityExceeded, param := param }
  else .ok a.toNat

/-- `MemRead(a, 1)` (20_memory.md R54). -/
def State.memRead (s : State) (a : Int) (param : Option Nat) : Except Trap Word :=
  match s.checkAddr a param with
  | .error t => .error t
  | .ok n => .ok (s.mem.read n)

/-- `MemWrite(a, 1, v)` at an address already checked: the checks of a write are made while its operand is resolved
(20_memory.md R55, 40_operands.md R113). -/
def State.memWrite (s : State) (a : Nat) (v : Word) : State := { s with mem := s.mem.write a v }

/-- The fetch of the instruction word: `MemRead(pc, 1)`, with no parameter at fault (47_dispatch_loop.md R181). -/
def State.fetch (s : State) : Except Trap Word := s.memRead s.pc none

/-- The word the fault record holds: the word at `pc`, none when it cannot be fetched (10_state.md R29). During a step
memory and `pc` still are as they were at its fetch (log 10). -/
def State.fetchedWord (s : State) : Option Word :=
  match s.fetch with
  | .ok w => some w
  | .error _ => none

/-! ## Retiring an instruction, returning from a run -/

/-- One more retired instruction in the count of a run (47_dispatch_loop.md R183). -/
def Run.count (r : Run) : Run := { r with executed := r.executed + 1 }

/-- The budget test of 47_dispatch_loop.md R183: a budget is given, is not negative, and is reached. -/
def Run.spent (r : Run) : Bool :=
  match r.budget with
  | none => false
  | some b => decide (0 ≤ b) && decide (b ≤ (r.executed : Int))

/-- The instruction retires with `next` in `pc` and is counted (10_state.md R22 b, 47_dispatch_loop.md R182, R183). -/
def State.retire (s : State) (next : Int) : State := { s with pc := next, run := s.run.map Run.count }

/-- The run in progress returns `(outcome, out[mark..])` to the host (47_dispatch_loop.md R183, R186); its policy, budget
and counts are forgotten (10_state.md R33). -/
def State.endRun (s : State) (o : RunOutcome) : State :=
  match s.run with
  | none => s
  | some r => { s with run := none, replies := s.replies ++ [.ran o (s.out.drop r.mark)] }

/-! ## Taking a fault -/

/-- The code numbers of 60_exceptions.md R220. -/
def FaultKind.code : FaultKind → Nat
  | .unknownOpcode => 1
  | .illegalWriteMode => 2
  | .negativeAddress => 3
  | .illegalMode => 4
  | .capacityExceeded => 5
  | .inputExhausted => 6

/-- The fault a decode error raises (30_encoding.md R87, 60_exceptions.md R220). -/
def trapOfDecodeError : DecodeError → Trap
  | .unknownOpcode => { kind := .unknownOpcode, param := none }
  | .illegalMode p => { kind := .illegalMode, param := some p }
  | .illegalWriteMode p => { kind := .illegalWriteMode, param := some p }

/-- The record of a fault raised in the present state (60_exceptions.md R222). -/
def State.faultInfo (s : State) (t : Trap) : FaultInfo :=
  { kind := t.kind, code := t.kind.code, atPc := s.pc, word := s.fetchedWord, param := t.param }

/-- TAKING A FAULT (60_exceptions.md R222): the status becomes Faulted, the record is written, and the run returns
`Fault(fault)` to the host; `mem`, `pc`, `rb`, `inq` and `out` are as at the start of the step. -/
def State.raise (s : State) (t : Trap) : State :=
  { s with status := .faulted, fault := some (s.faultInfo t) }.endRun (.fault (some (s.faultInfo t)))

end Sys2Proof.Machine
end

