-- ==== Sys2Proof/Machine/Operands.lean ====
section
/-! DEFINITION. Operand resolution (40_operands.md R110 to R115): the raw parameter, the effective address, the value of a
read operand, the address of a write operand, and the resolution of all parameters of a format in ascending order.

Resolution changes no state (40_operands.md R115); the first fault met is the one reported (60_exceptions.md R223). -/

namespace Sys2Proof.Machine

/-- `param(p) = MemRead(pc + p, 1)`, the raw parameter (30_encoding.md R83). -/
def State.fetchParam (s : State) (p : Nat) : Except Trap Word := s.memRead (s.pc + p) (some p)

/-- `EA(p, m)` for the raw parameter of `p` (40_operands.md R111): the sum of relative mode is exact, never wrapped. `EA`
is not defined for immediate mode; an instruction with an immediate write parameter, which no word decodes to, meets here
the fault 30_encoding.md R88 gives it (log 9). -/
def State.effectiveAddress (s : State) (p : Nat) (m : Mode) (raw : Word) : Except Trap Nat :=
  match m with
  | .position => s.checkAddr raw.toInt (some p)
  | .immediate => .error { kind := .illegalWriteMode, param := some p }
  | .relative => s.checkAddr (s.rb.toInt + raw.toInt) (some p)

/-- `val(p)` for the raw parameter of `p` (40_operands.md R112): the literal itself, or the cell at the effective
address. -/
def State.readOperand (s : State) (p : Nat) (m : Mode) (raw : Word) : Except Trap Word :=
  match m with
  | .immediate => .ok raw
  | m =>
    match s.effectiveAddress p m raw with
    | .error t => .error t
    | .ok a => .ok (s.mem.read a)

/-- Read parameter `p`: its cell is fetched, then its value is read (40_operands.md R115). -/
def State.val (s : State) (p : Nat) (m : Mode) : Except Trap Word :=
  match s.fetchParam p with
  | .error t => .error t
  | .ok raw => s.readOperand p m raw

/-- Write parameter `p`: its cell is fetched, then its address is computed; the cell at that address is not read
(40_operands.md R113, R115). -/
def State.dst (s : State) (p : Nat) (m : Mode) : Except Trap Nat :=
  match s.fetchParam p with
  | .error t => .error t
  | .ok raw => s.effectiveAddress p m raw

/-- `Resolve` for format RR (40_operands.md R115). -/
def State.resolveRR (s : State) (a b : Mode) : Except Trap (Word × Word) :=
  match s.val 1 a with
  | .error t => .error t
  | .ok v1 =>
    match s.val 2 b with
    | .error t => .error t
    | .ok v2 => .ok (v1, v2)

/-- `Resolve` for format RRW (40_operands.md R115). -/
def State.resolveRRW (s : State) (a b c : Mode) : Except Trap (Word × Word × Nat) :=
  match s.resolveRR a b with
  | .error t => .error t
  | .ok (v1, v2) =>
    match s.dst 3 c with
    | .error t => .error t
    | .ok d => .ok (v1, v2, d)

/-- The shared shape of format RRW: resolve, then store `f a b` at the destination and retire with `pc + 4`
(41_arithmetic.md R130, R131; 44_compare.md R160, R161). -/
def State.storeBinary (s : State) (f : Word → Word → Word) (a b c : Mode) : State :=
  match s.resolveRRW a b c with
  | .error t => s.raise t
  | .ok (v1, v2, d) => (s.memWrite d (f v1 v2)).retire (s.pc + 4)

/-- The shared shape of format RR: resolve both operands, taken or not, then retire at the target if the condition holds
of the first and at `pc + 3` if not (43_jumps.md R150, R151). -/
def State.jumpWhen (s : State) (cond : Word → Bool) (a target : Mode) : State :=
  match s.resolveRR a target with
  | .error t => s.raise t
  | .ok (v1, v2) => s.retire (if cond v1 then v2.toInt else s.pc + 3)

end Sys2Proof.Machine
end

