-- ==== Sys2Proof/Machine/Arithmetic.lean ====
section
/-! DEFINITION. The arithmetic instructions, add and multiply (41_arithmetic.md). -/

namespace Sys2Proof.Machine

/-- `add` (41_arithmetic.md R130): "mem[dst] = val(a) + val(b)", the exact sum wrapped into I64. -/
def execAdd (a b dst : Mode) (s : State) : Host.Outcome State Fault Refusal :=
  .next (s.storeBinary wrapSum a b dst)

/-- `multiply` (41_arithmetic.md R131): "mem[dst] = val(a) * val(b)", the exact product wrapped into I64. -/
def execMultiply (a b dst : Mode) (s : State) : Host.Outcome State Fault Refusal :=
  .next (s.storeBinary wrapProduct a b dst)

end Sys2Proof.Machine
end

