-- ==== Sys2Proof/Machine/Base.lean ====
section
/-! DEFINITION. The one instruction that writes the relative base, adjust-base (45_adjust_base.md). -/

namespace Sys2Proof.Machine

/-- `adjust-base` (45_adjust_base.md R170): "relative_base += val(a)", wrapped (decision D3). A relative operand uses the
old base (40_operands.md R114). -/
def execAdjustBase (a : Mode) (s : State) : Host.Outcome State Fault Refusal :=
  match s.val 1 a with
  | .error t => .next (s.raise t)
  | .ok v => .next ({ s with rb := wrapSum s.rb v }.retire (s.pc + 2))

end Sys2Proof.Machine
end

