-- ==== Sys2Proof/Machine/Compare.lean ====
section
/-! DEFINITION. The comparison instructions, less-than and equals (44_compare.md). -/

namespace Sys2Proof.Machine

/-- `less-than` (44_compare.md R160): "mem[dst] = 1 if val(a) < val(b) else 0", signed. -/
def execLessThan (a b dst : Mode) (s : State) : Host.Outcome State Fault Refusal :=
  .next (s.storeBinary lessThanWord a b dst)

/-- `equals` (44_compare.md R161): "mem[dst] = 1 if val(a) = val(b) else 0". -/
def execEquals (a b dst : Mode) (s : State) : Host.Outcome State Fault Refusal :=
  .next (s.storeBinary equalsWord a b dst)

end Sys2Proof.Machine
end

