-- ==== Sys2Proof/Machine/Halt.lean ====
section
/-! DEFINITION. The halt instruction (46_halt.md). -/

namespace Sys2Proof.Machine

/-- `halt` (46_halt.md R175): the status becomes Halted, `pc` stays at the halt word, and the run returns Halted. It
resolves nothing and is not counted (47_dispatch_loop.md R184 d). -/
def execHalt (s : State) : Host.Outcome State Fault Refusal :=
  .next ({ s with status := .halted }.endRun .halted)

end Sys2Proof.Machine
end

