-- ==== Sys2Proof/Machine/InputOutput.lean ====
section
/-! DEFINITION. The instructions that reach the environment, input and output (42_io.md). -/

namespace Sys2Proof.Machine

/-- The `input` step with an empty queue (42_io.md R140): under the streaming policy the status becomes Blocked and the
run returns BlockedOnInput, under the batch policy InputExhausted is raised. The policy is that of the run in progress;
without a run there is none (log 8). -/
def State.inputEmpty (s : State) : Host.Outcome State Fault Refusal :=
  match s.run with
  | none => .fault .noRunInProgress
  | some r =>
    match r.policy with
    | .streaming => .next ({ s with status := .blocked }.endRun .blockedOnInput)
    | .batch => .next (s.raise { kind := .inputExhausted, param := none })

/-- `input` (42_io.md R140): the destination is resolved before the queue is looked at; the head of the queue is removed
and stored, and the instruction retires with `pc + 2`. -/
def execInput (dst : Mode) (s : State) : Host.Outcome State Fault Refusal :=
  match s.dst 1 dst with
  | .error t => .next (s.raise t)
  | .ok d =>
    match s.inq with
    | [] => s.inputEmpty
    | x :: rest => .next (({ s with inq := rest }.memWrite d x).retire (s.pc + 2))

/-- `output` (42_io.md R141): "append val(a) to output sequence". -/
def execOutput (a : Mode) (s : State) : Host.Outcome State Fault Refusal :=
  match s.val 1 a with
  | .error t => .next (s.raise t)
  | .ok v => .next ({ s with out := s.out ++ [v] }.retire (s.pc + 2))

end Sys2Proof.Machine
end

