-- ==== Sys2Proof/Machine/Jumps.lean ====
section
/-! DEFINITION. The conditional jumps (43_jumps.md). A target is loaded as it is; a bad one faults at the next fetch
(43_jumps.md R150; decision D4). -/

namespace Sys2Proof.Machine

/-- `jump-if-true` (43_jumps.md R150): "pc = val(target) if val(a) ≠ 0, else pc+3". -/
def execJumpIfTrue (a target : Mode) (s : State) : Host.Outcome State Fault Refusal :=
  .next (s.jumpWhen isNonZero a target)

/-- `jump-if-false` (43_jumps.md R151): "pc = val(target) if val(a) = 0, else pc+3". -/
def execJumpIfFalse (a target : Mode) (s : State) : Host.Outcome State Fault Refusal :=
  .next (s.jumpWhen (fun v => !isNonZero v) a target)

end Sys2Proof.Machine
end

