-- ==== Sys2Proof/Machine/Dispatch.lean ====
section
/-! DEFINITION. Phases 3 and 4 of a step (47_dispatch_loop.md R180) for a decoded instruction: one arm per instruction of
30_encoding.md R86. -/

namespace Sys2Proof.Machine

def exec (i : Instr) (s : State) : Host.Outcome State Fault Refusal :=
  match i with
  | .add a b dst => Sys2Proof.Machine.execAdd a b dst s
  | .multiply a b dst => Sys2Proof.Machine.execMultiply a b dst s
  | .input dst => Sys2Proof.Machine.execInput dst s
  | .output a => Sys2Proof.Machine.execOutput a s
  | .jumpIfTrue a target => Sys2Proof.Machine.execJumpIfTrue a target s
  | .jumpIfFalse a target => Sys2Proof.Machine.execJumpIfFalse a target s
  | .lessThan a b dst => Sys2Proof.Machine.execLessThan a b dst s
  | .equals a b dst => Sys2Proof.Machine.execEquals a b dst s
  | .adjustBase a => Sys2Proof.Machine.execAdjustBase a s
  | .halt => Sys2Proof.Machine.execHalt s

end Sys2Proof.Machine
end

