-- ==== Sys2Proof/Machine/HostCalls.lean ====
section
/-! DEFINITION. The host operations (48_host_operations.md R200 to R206), each one atomic transaction between runs, and the
two ways out of a fault, `reset` and `restore` (60_exceptions.md R224). -/

namespace Sys2Proof.Machine

/-- The host gets a reply. -/
def State.reply (s : State) (r : HostReply) : State := { s with replies := s.replies ++ [r] }

/-- A new machine (48_host_operations.md R200, 10_state.md R35), with no run in progress and nothing of the host's. -/
def State.fresh (cfg : Config) (image : List Word) : State :=
  { cfg := cfg, image := image, mem := Memory.ofImage 0 image, pc := 0, rb := 0, status := .running, fault := none,
    inq := [], out := [], run := none, calls := [], replies := [] }

/-- The precondition of `create` (48_host_operations.md R200; decision D21). -/
def imageOk (cfg : Config) (image : List Int) : Bool :=
  decide (image.length ≤ cfg.addrLimit) && image.all isI64

/-- `create(IMAGE)` (48_host_operations.md R200): the machine becomes a new one with the same ADDR_LIMIT, or the call is
refused and nothing changes (log 12). -/
def State.create (s : State) (image : List Int) : State :=
  if imageOk s.cfg image then
    { State.fresh s.cfg (image.map (BitVec.ofInt 64)) with calls := s.calls, replies := s.replies ++ [.created] }
  else s.reply .refused

/-- `push_input(v)` (48_host_operations.md R201): `v` is queued, and a Blocked machine becomes Running. -/
def State.pushInput (s : State) (v : Word) : State :=
  { s with inq := s.inq ++ [v], status := if s.status = .blocked then .running else s.status }

/-- `drain_output()` (48_host_operations.md R202). -/
def State.drainOutput (s : State) : State := { s with out := [] }.reply (.drained s.out)

/-- `reset()` (48_host_operations.md R203). -/
def State.hostReset (s : State) : State :=
  { s with mem := Memory.ofImage 0 s.image, pc := 0, rb := 0, status := .running, fault := none, inq := [] }

/-- The checkpoint of the present state (48_host_operations.md R204, 10_state.md R34). -/
def State.checkpoint (s : State) : Checkpoint :=
  { addrLimit := s.cfg.addrLimit, memorySnapshot := s.mem, programCounter := s.pc, relativeBase := s.rb,
    doneFlag := decide (s.status = .halted) }

/-- `save()` (48_host_operations.md R204). -/
def State.save (s : State) : State := s.reply (.saved s.checkpoint)

/-- A value that `save()` of a machine with this ADDR_LIMIT can return, up to its done flag (log 11): its memory is a
memory of that size, and its `pc` is in the range of 10_state.md R22 (c). -/
def Checkpoint.wf (limit : Nat) (c : Checkpoint) : Bool :=
  decide (c.addrLimit = limit) && decide (c.memorySnapshot.wf) && decide (c.memorySnapshot.below limit)
    && decide (-2 ^ 63 ≤ c.programCounter) && decide (c.programCounter ≤ 2 ^ 63)

/-- The effect of `restore(c)` (48_host_operations.md R205). -/
def State.install (s : State) (c : Checkpoint) : State :=
  { s with mem := c.memorySnapshot, pc := c.programCounter, rb := c.relativeBase,
           status := if c.doneFlag then .halted else .running, fault := none }

/-- `restore(c)` (48_host_operations.md R205): refused, and nothing changed, for what no machine of this ADDR_LIMIT can
have saved (93_implementation_defined.md V18; log 11). -/
def State.restore (s : State) (c : Checkpoint) : State :=
  if c.wf s.cfg.addrLimit then s.install c else s.reply .refused

/-- What `inspect` gives (48_host_operations.md R206): a cell through `MemRead`, or the value of a register, the status,
the fault record, or a queue. A cell that is none is refused (log 13). -/
def State.probe (s : State) : Probe → HostReply
  | .cell a =>
    match s.memRead a none with
    | .ok v => .word v
    | .error _ => .refused
  | .pc => .integer s.pc
  | .rb => .word s.rb
  | .status => .statusIs s.status
  | .fault => .faultIs s.fault
  | .inq => .words s.inq
  | .out => .words s.out

/-- `run(POLICY, BUDGET)` is called: the output log is marked and the count starts at 0 (47_dispatch_loop.md R183, R184
e). What the run then does is Machine/Loop.lean. -/
def State.beginRun (s : State) (policy : Policy) (budget : Option Int) : State :=
  { s with run := some { policy := policy, budget := budget, executed := 0, mark := s.out.length } }

/-- One host operation (48_host_operations.md R207). -/
def State.hostCall (s : State) : HostCall → State
  | .create image => s.create image
  | .pushInput v => s.pushInput v
  | .run policy budget => s.beginRun policy budget
  | .drainOutput => s.drainOutput
  | .reset => s.hostReset
  | .save => s.save
  | .restore c => s.restore c
  | .inspect what => s.reply (s.probe what)

end Sys2Proof.Machine
end

