-- ==== Sys2Proof/Machine/Loop.lean ====
section
/-! DEFINITION. Whose turn it is and what it does short of executing an instruction: the dispatch loop of
47_dispatch_loop.md R183, with phases 1 and 2 of a step (R180), and the host's turn between runs (00_scope.md R11). -/

namespace Sys2Proof.Machine

/-- What the next step is. -/
inductive Turn
  /-- Everything there is to do leads to this state. -/
  | done (s : State)
  /-- The core executes this instruction in the present state. -/
  | execute (i : Instr)
  deriving DecidableEq, Repr

/-- Phases 1 and 2 of a step (47_dispatch_loop.md R180): fetch, decode; either may raise. -/
def State.fetchDecode (s : State) : Turn :=
  match s.fetch with
  | .error t => .done (s.raise t)
  | .ok w =>
    match decode w with
    | .error e => .done (s.raise (trapOfDecodeError e))
    | .ok i => .execute i

/-- One round of the loop of 47_dispatch_loop.md R183 in the run `r`: a Faulted or Halted machine returns at once (log
14), then the budget is tested, then the core steps. -/
def State.loopTurn (s : State) (r : Run) : Turn :=
  match s.status with
  | .faulted => .done (s.endRun (.fault s.fault))
  | .halted => .done (s.endRun .halted)
  | .running => if r.spent then .done (s.endRun .budgetExhausted) else s.fetchDecode
  | .blocked => if r.spent then .done (s.endRun .budgetExhausted) else s.fetchDecode

/-- The core's turn while a run is in progress; between runs the host's next call; and nothing at all when the host makes
no call (60_exceptions.md R238; log 7). -/
def State.turn (s : State) : Turn :=
  match s.run with
  | some r => s.loopTurn r
  | none =>
    match s.calls with
    | [] => .done s
    | c :: rest => .done ({ s with calls := rest }.hostCall c)

/-- `s` with the cells of a list stored from `pc` on, as far as they are cells of memory. -/
def State.placeCells (s : State) : Nat → List Word → State
  | _, [] => s
  | k, v :: vs =>
    (match s.checkAddr (s.pc + k) none with
      | .ok a => s.memWrite a v
      | .error _ => s).placeCells (k + 1) vs

/-- A run that lets the next step execute: the one in progress if its budget is not spent, else a run under the streaming
policy without a budget (log 6). -/
def State.runForFetch (s : State) : Run :=
  match s.run with
  | some r => if r.spent then { r with budget := none } else r
  | none => { policy := .streaming, budget := none, executed := 0, mark := s.out.length }

/-- `s` about to execute what stands at `pc`: a run in progress with budget left, and a status in which the core steps. -/
def State.readyToFetch (s : State) : State :=
  match s.status with
  | .running => { s with run := some s.runForFetch }
  | .blocked => { s with run := some s.runForFetch }
  | .halted => { s with run := some s.runForFetch, status := .running }
  | .faulted => { s with run := some s.runForFetch, status := .running, fault := none }

end Sys2Proof.Machine
end

