-- ==== Sys2Proof/Machine/Step.lean ====
section
/-! DEFINITION. One step of the machine: the turn of Machine/Loop.lean, and `exec` when that turn is to execute. -/

namespace Sys2Proof.Machine

/-- One step: a host call, a round of the dispatch loop that returns or faults, or the execution of one instruction. -/
def step (s : State) : Host.Outcome State Fault Refusal :=
  match s.turn with
  | .done t => .next t
  | .execute i => exec i s

/-- `s` with the instruction whose bits are `w` (as `decodeTableWord` numbers them) in the cells from `pc` on, four cells
long, and made ready to execute it in the very next step (log 6). -/
def State.withFetchWord (s : State) (nbits w : Nat) : State :=
  (s.placeCells 0 [tableCell nbits w 0, tableCell nbits w 1, tableCell nbits w 2, tableCell nbits w 3]).readyToFetch

end Sys2Proof.Machine
end

