-- ==== Sys2Proof/Machine/System.lean ====
section
/-! DEFINITION. Several machines (60_exceptions.md R236): separate copies of the whole state that share nothing. The host
lets them step in an order of its choice, decides its next call on any of them, and carries the outputs a machine's runs
have returned to the input of another; it can see that all of them wait (log 15). -/

namespace Sys2Proof.Machine

/-- One machine of a host, and how many of its replies the host has dealt with: the outputs in the others are still to be
carried on or kept. -/
structure Member where
  machine : State
  taken : Nat
  deriving DecidableEq, Repr

/-- The machines of one host (00_scope.md R11). -/
abbrev System := List Member

/-- `out_new` of a reply, empty for the reply of anything but a run (47_dispatch_loop.md R186). -/
def outNewOf : HostReply → List Word
  | .created => []
  | .refused => []
  | .ran _ outNew => outNew
  | .drained _ => []
  | .saved _ => []
  | .word _ => []
  | .integer _ => []
  | .statusIs _ => []
  | .faultIs _ => []
  | .words _ => []

/-- The "freshly produced output" of a machine: `out_new` of every run that has returned since the host last dealt with
its replies, in order. -/
def Member.fresh (m : Member) : List Word := (m.machine.replies.drop m.taken).flatMap outNewOf

/-- The host has dealt with every reply so far. -/
def Member.take (m : Member) : Member := { m with taken := m.machine.replies.length }

/-- The host decides on further calls, made in order after those it has decided on before. -/
def Member.callAll (m : Member) (cs : List HostCall) : Member :=
  { m with machine := { m.machine with calls := m.machine.calls ++ cs } }

/-- Machine `i` takes a step; the others are untouched. A machine that does not exist takes none. -/
def System.stepAt (sys : System) (i : Nat) : Host.Outcome System Fault Refusal :=
  match sys[i]? with
  | none => .next sys
  | some m =>
    match step m.machine with
    | .next t => .next (sys.set i { m with machine := t })
    | .fault f => .fault f
    | .refused r => .refused r

/-- The host's next call on machine `i`: a run, a push, any host operation (48_host_operations.md R207). -/
def System.call (sys : System) (i : Nat) (c : HostCall) : System := sys.modify i fun m => m.callAll [c]

/-- The host keeps the fresh output of machine `i` for itself. -/
def System.take (sys : System) (i : Nat) : System := sys.modify i Member.take

/-- The host takes the fresh output of machine `i` and `push_input`s its values, in order, into machine `j`
(60_exceptions.md R236, 42_io.md R142). A machine that does not exist gives and gets nothing. -/
def System.carry (sys : System) (i j : Nat) : System :=
  match sys[i]?, sys[j]? with
  | some m, some _ => (sys.take i).modify j fun n => n.callAll (m.fresh.map .pushInput)
  | _, _ => sys

/-- What the host can do with its machines; the order is its own (60_exceptions.md R236). -/
inductive HostMove
  /-- It lets machine `i` take a step. -/
  | step (i : Nat)
  /-- It decides its next call on machine `i`. -/
  | call (i : Nat) (c : HostCall)
  /-- It carries the fresh output of machine `i` to machine `j`. -/
  | carry (i j : Nat)
  /-- It keeps the fresh output of machine `i`. -/
  | take (i : Nat)
  deriving DecidableEq, Repr

/-- One move of the host. -/
def System.move (sys : System) : HostMove → Host.Outcome System Fault Refusal
  | .step i => sys.stepAt i
  | .call i c => .next (sys.call i c)
  | .carry i j => .next (sys.carry i j)
  | .take i => .next (sys.take i)

/-- The host's moves, one after another. -/
def System.play : System → List HostMove → Host.Outcome System Fault Refusal
  | sys, [] => .next sys
  | sys, mv :: rest =>
    match sys.move mv with
    | .next sys' => System.play sys' rest
    | .fault f => .fault f
    | .refused r => .refused r

/-- The turn of machine `i` in a ring of `n` machines with a step budget of `k` (60_exceptions.md R236): the host runs it,
and carries what it put out to the next machine. The steps suffice for at most `k` values carried to it, the call, `k`
instructions and the return; a step with nothing to do changes nothing (log 7). -/
def ringTurn (n k i : Nat) : List HostMove :=
  .call i (.run .streaming (some k)) :: (List.replicate (2 * k + 2) (HostMove.step i) ++ [.carry i ((i + 1) % n)])

/-- One round of a ring: each machine's turn, "in round-robin order". -/
def ringRound (n k : Nat) : List HostMove := (List.range n).flatMap (ringTurn n k)

/-- "all machines blocked on input with no producer runnable" (60_exceptions.md R236, 70_reset_and_hazards.md R261 b): every
machine is Blocked, no run is in progress, the host has no call to make, and no output is still to be carried. -/
def System.deadlocked (sys : System) : Bool :=
  sys.all fun m =>
    decide (m.machine.status = .blocked) && m.machine.run.isNone && m.machine.calls.isEmpty && m.fresh.isEmpty

end Sys2Proof.Machine
end

