-- ==== Sys2Proof/Safety.lean ====
section
/-! DEFINITION. The terms claims are stated in: which addresses exist, what an operand is and when it can be resolved, read
straight from 40_operands.md without the order of its checks; what a safe state is (10_state.md R36 and the model's own
conditions); and when two states look alike to the core. -/

namespace Sys2Proof.Machine

/-! ## Addresses and operands -/

/-- `a` is an address of the machine: `0 ≤ a < ADDR_LIMIT` (20_memory.md R51). -/
abbrev State.inSpace (s : State) (a : Int) : Prop := 0 ≤ a ∧ a < (s.cfg.addrLimit : Int)

/-- The value of the cell at an address (20_memory.md R54). -/
def State.cell (s : State) (a : Int) : Word := s.mem.read a.toNat

/-- The raw parameter `p` of the instruction at `pc` (30_encoding.md R83). -/
def State.param (s : State) (p : Nat) : Word := s.cell (s.pc + p)

/-- The exact integer a parameter in position or relative mode addresses, before any check (40_operands.md R111); in
immediate mode, which addresses nothing, the literal. -/
def State.operandAddr (s : State) (p : Nat) (m : Mode) : Int :=
  match m with
  | .position => (s.param p).toInt
  | .immediate => (s.param p).toInt
  | .relative => s.rb.toInt + (s.param p).toInt

/-- Read parameter `p` resolves without a fault: its cell exists and, unless it is a literal, so does the cell it
addresses. -/
abbrev State.readable (s : State) (p : Nat) (m : Mode) : Prop :=
  s.inSpace (s.pc + p) ∧ (m = .immediate ∨ s.inSpace (s.operandAddr p m))

/-- The value of a readable parameter (40_operands.md R112). -/
def State.value (s : State) (p : Nat) (m : Mode) : Word :=
  match m with
  | .position => s.cell (s.operandAddr p .position)
  | .immediate => s.param p
  | .relative => s.cell (s.operandAddr p .relative)

/-- Write parameter `p` resolves without a fault: its cell exists, its mode is no literal, and the cell it addresses
exists. -/
abbrev State.writable (s : State) (p : Nat) (m : Mode) : Prop :=
  s.inSpace (s.pc + p) ∧ m ≠ .immediate ∧ s.inSpace (s.operandAddr p m)

/-- The cell a writable parameter names (40_operands.md R113). -/
def State.target (s : State) (p : Nat) (m : Mode) : Nat := (s.operandAddr p m).toNat

/-- The fault of an access at an integer that is no address (20_memory.md R54): NegativeAddress below 0, else
CapacityExceeded. -/
def addressTrap (a : Int) (param : Option Nat) : Trap :=
  if a < 0 then { kind := .negativeAddress, param := param } else { kind := .capacityExceeded, param := param }

/-- The fault of a parameter that does not resolve (40_operands.md R115): that of its own cell if that cell does not
exist, else that of a literal to be written (log 9), else that of the cell it addresses. -/
def State.operandTrap (s : State) (p : Nat) (m : Mode) : Trap :=
  if s.inSpace (s.pc + p) then
    if m = .immediate then { kind := .illegalWriteMode, param := some p } else addressTrap (s.operandAddr p m) (some p)
  else addressTrap (s.pc + p) (some p)

/-- The instruction at `pc`, none if the word there cannot be fetched or is no instruction. -/
def State.nextInstr (s : State) : Option Instr :=
  match s.fetch with
  | .error _ => none
  | .ok w =>
    match decode w with
    | .error _ => none
    | .ok i => some i

/-- The core steps in this state: a run is in progress with budget left, and the status is Running or Blocked
(47_dispatch_loop.md R180, R183). -/
abbrev State.coreSteps (s : State) (r : Run) : Prop :=
  s.run = some r ∧ r.spent = false ∧ (s.status = .running ∨ s.status = .blocked)

/-- How many parameters an opcode has: `L - 1` (30_encoding.md R85); 0 for a number that is no opcode. -/
def paramCount : Nat → Nat
  | 1 => 3
  | 2 => 3
  | 3 => 1
  | 4 => 1
  | 5 => 2
  | 6 => 2
  | 7 => 3
  | 8 => 3
  | 9 => 1
  | _ => 0

/-! ## Safe states -/

/-- The record of a recorded fault fits the state: the code is that of the kind, `at_pc` and `word` are those of the
faulting step, which changed neither `pc` nor `mem`, and the parameter is one of 1..3 (10_state.md R29). -/
abbrev State.recordFits (s : State) (f : FaultInfo) : Prop :=
  f.code = f.kind.code ∧ f.atPc = s.pc ∧ f.word = s.fetchedWord ∧ (f.param = none ∨ f.param = some 1 ∨ f.param = some 2 ∨ f.param = some 3)

/-- What a Blocked machine is like (10_state.md R36): its queue is empty, and at `pc` stands an `input` instruction whose
destination resolves. -/
def State.waitsForInput (s : State) : Prop :=
  s.inq = [] ∧ ∃ m, s.nextInstr = some (.input m) ∧ s.writable 1 m

/-- The invariant of every reachable state. That every cell, queue entry and `rb` is in I64 (10_state.md R36) is in the
type Word. -/
structure State.Inv (s : State) : Prop where
  /-- 00_scope.md R6. -/
  limitLegal : s.cfg.wf = true
  /-- The canonical form of the memory. -/
  memCanonical : s.mem.wf
  /-- No cell at or above ADDR_LIMIT (10_state.md R24). -/
  memBelow : s.mem.below s.cfg.addrLimit
  /-- 48_host_operations.md R200. -/
  imageFits : s.image.length ≤ s.cfg.addrLimit
  /-- 10_state.md R36: `-2^63 ≤ pc ≤ 2^63`. -/
  pcInRange : -2 ^ 63 ≤ s.pc ∧ s.pc ≤ 2 ^ 63
  /-- 10_state.md R36: `fault != none` exactly when `status = Faulted`. -/
  faultIffFaulted : s.fault ≠ none ↔ s.status = .faulted
  /-- 10_state.md R29. -/
  faultFits : ∀ f, s.fault = some f → s.recordFits f
  /-- 10_state.md R36. -/
  blockedWaits : s.status = .blocked → s.waitsForInput
  /-- 47_dispatch_loop.md R183: the mark of a run lies in the log. -/
  markInLog : ∀ r, s.run = some r → r.mark ≤ s.out.length
  /-- 47_dispatch_loop.md R184 (b): no run retires more than its budget. -/
  withinBudget : ∀ r b, s.run = some r → r.budget = some b → 0 ≤ b → (r.executed : Int) ≤ b

/-! ## States alike to the core -/

/-- The two states agree on all an instruction reads (47_dispatch_loop.md R191): the ceiling, memory, `pc`, `rb`, the input
queue, and the policy of the run in progress. They may differ in the image, the status, the fault record, the log, the
budget and counts of the run, and all that is the host's. -/
structure SameToCore (s t : State) : Prop where
  cfg : s.cfg = t.cfg
  mem : s.mem = t.mem
  pc : s.pc = t.pc
  rb : s.rb = t.rb
  inq : s.inq = t.inq
  policy : s.run.map Run.policy = t.run.map Run.policy

/-- The first call still to come, while no run is in progress: the call the next step makes. -/
def State.nextCall (s : State) : Option HostCall :=
  match s.run with
  | some _ => none
  | none => s.calls.head?

/-- A call that gives the machine input or lets it run, and does nothing else (48_host_operations.md R201,
47_dispatch_loop.md R183). -/
def HostCall.feedsOrRuns : HostCall → Bool
  | .pushInput _ => true
  | .run _ _ => true
  | _ => false

/-- The state in which the run in progress has returned `o` with the outputs it made (47_dispatch_loop.md R183, R186),
nothing else changed. -/
def State.returned (s : State) (r : Run) (o : RunOutcome) : State :=
  { s with run := none, replies := s.replies ++ [.ran o (s.out.drop r.mark)] }

/-- The state `n` steps on; a step that has no next state stays where it is. -/
def State.after : Nat → State → State
  | 0, s => s
  | n + 1, s =>
    match step s with
    | .next t => State.after n t
    | .fault _ => s
    | .refused _ => s

/-- The run in progress never returns: after every number of steps it is still in progress. It is a non-terminating
execution and no outcome (47_dispatch_loop.md R190, 70_reset_and_hazards.md R261 a; log 16). -/
def State.neverReturns (s : State) : Prop := ∀ n, (State.after n s).run ≠ none

end Sys2Proof.Machine
end

