-- ==== Sys2Proof/Certificates/Slice0/Obligations.lean ====
section
/-! DEFINITION. The statements for the provers. Each is listed in OBLIGATIONS.json with the rules of spec/ it formalises or
the sections it rests on. A decision D<n> is a choice of the spec's own (92_eei_decisions.md), a log entry a choice of the
model's: a docstring names the ones its statement rests on. -/

open Sys2Proof Sys2Proof.Machine

/-! ## The decoder and the encoder -/

/-- The worked encodings of 30_encoding.md R94 and rows of the decode table of 95_test_vectors.md section 2.1, every
format and every decode fault among them. -/
def Obligations.WorkedWordsDecode : Prop :=
  decode 1002 = .ok (.multiply .position .immediate .position) ∧
  decode 1 = .ok (.add .position .position .position) ∧
  decode 21101 = .ok (.add .immediate .immediate .relative) ∧
  decode 203 = .ok (.input .relative) ∧
  decode 204 = .ok (.output .relative) ∧
  decode 1205 = .ok (.jumpIfTrue .relative .immediate) ∧
  decode 2106 = .ok (.jumpIfFalse .immediate .relative) ∧
  decode 2107 = .ok (.lessThan .immediate .relative .position) ∧
  decode 20208 = .ok (.equals .relative .position .relative) ∧
  decode 209 = .ok (.adjustBase .relative) ∧
  decode 12399 = .ok .halt ∧
  decode 100001 = .ok (.add .position .position .position) ∧
  decode (-1) = .error .unknownOpcode ∧
  decode 98 = .error .unknownOpcode ∧
  decode 33305 = .error (.illegalMode 1) ∧
  decode 30001 = .error (.illegalMode 3) ∧
  decode 103 = .error (.illegalWriteMode 1) ∧
  decode 13001 = .error (.illegalMode 2)

/-- Decoding the word assembled from an instruction's fields (30_encoding.md section 6, item d) gives the instruction
back, for every well-formed instruction and every mode of every parameter. -/
def Obligations.DecodeAfterEncodeIsIdentity : Prop :=
  ∀ i : Instr, i.wf = true → decode (encode i) = .ok i

/-- A word decodes to an instruction exactly if it is not negative, the instruction is well-formed, and the digits the
format examines (two for the opcode, one per parameter) are those of the instruction's word; the digits above them are
ignored. Rests on D6 (negative words), D7 (mode digits 3 to 9) and D8 (ignored digits). -/
def Obligations.DecodeAcceptsExactlyTheFormats : Prop :=
  ∀ (w : Word) (i : Instr),
    decode w = .ok i ↔
      0 ≤ w.toInt ∧ i.wf = true ∧ w.toNat % 10 ^ (2 + i.modes.length) = encodeNat i

/-- 30_encoding.md R81: the opcode is `w mod 100`, the mode of parameter p (here numbered from 0) is
`(w div 10^(p+2)) mod 10`, and a missing leading digit is 0. -/
def Obligations.DecodedFieldsAreDecimalDigits : Prop :=
  (∀ (w : Word) (i : Instr), decode w = .ok i →
    i.opcode = w.toNat % 100 ∧
    ∀ p m, i.modes[p]? = some m → m.digit = w.toNat / 10 ^ (p + 2) % 10) ∧
  decode 2 = .ok (.multiply .position .position .position)

/-- 30_encoding.md R89: a word whose two low digits are 00 or 10 to 98 raises UnknownOpcode, and the step that fetches it
takes that fault: it is reported (Faulted, not Halted) and not skipped. The word 0, which every unwritten cell holds, is
one. -/
def Obligations.IllegalOpcodeIsAFault : Prop :=
  (∀ w : Word, 0 ≤ w.toInt → (w.toNat % 100 = 0 ∨ (10 ≤ w.toNat % 100 ∧ w.toNat % 100 ≤ 98)) →
    decode w = .error .unknownOpcode ∧
    ∀ (s : State) (r : Run), s.coreSteps r → s.inSpace s.pc → s.mem.read s.pc.toNat = w →
      step s = .next (s.raise { kind := .unknownOpcode, param := none })) ∧
  decode 0 = .error .unknownOpcode ∧
  (∀ (s : State) (t : Trap), (s.raise t).status = .faulted) ∧
  (∀ (s : State) (r : Run), s.coreSteps r → s.inSpace s.pc → (∀ c ∈ s.mem, c.1 ≠ s.pc.toNat) →
    step s = .next (s.raise { kind := .unknownOpcode, param := none }))

/-- 30_encoding.md R88: mode digit 1 on a write parameter raises IllegalWriteMode(p), p = 3 with opcodes 1, 2, 7 and 8 and
p = 1 with opcode 3 (the read parameters before it in legal modes); so no word decodes to an instruction that writes in
immediate mode. -/
def Obligations.ImmediateWriteIsRefused : Prop :=
  (∀ w : Word, 0 ≤ w.toInt →
    (w.toNat % 100 = 1 ∨ w.toNat % 100 = 2 ∨ w.toNat % 100 = 7 ∨ w.toNat % 100 = 8) →
    digit w.toNat 2 < 3 → digit w.toNat 3 < 3 → digit w.toNat 4 = 1 →
    decode w = .error (.illegalWriteMode 3)) ∧
  (∀ w : Word, 0 ≤ w.toInt → w.toNat % 100 = 3 → digit w.toNat 2 = 1 →
    decode w = .error (.illegalWriteMode 1)) ∧
  (∀ (w : Word) (i : Instr), decode w = .ok i → i.wf = true) ∧
  decode 10001 = .error (.illegalWriteMode 3) ∧ decode 11102 = .error (.illegalWriteMode 3) ∧
  decode 103 = .error (.illegalWriteMode 1)

/-- Exactly which words raise which decode fault, and that the first bad mode digit in parameter order is the one reported
(30_encoding.md sections 4 and 5); and that the step that fetches such a word takes that fault: its record names the kind,
the code, the pc, the word and the parameter, whatever the parameter cells and `rb` hold, so that a decode fault of any
parameter precedes every address fault (60_exceptions.md section 1). Rests on D6 (negative words), D7 (mode digits 3 to 9),
D10 (the order), D11 and D12 (the record and its codes). -/
def Obligations.DecodeFaultsExactly : Prop :=
  (∀ (w : Word) (p : Nat),
    (decode w = .error .unknownOpcode ↔
      w.toInt < 0 ∨ w.toNat % 100 = 0 ∨ (10 ≤ w.toNat % 100 ∧ w.toNat % 100 ≤ 98)) ∧
    (decode w = .error (.illegalMode p) ↔
      0 ≤ w.toInt ∧ 1 ≤ p ∧ p ≤ paramCount (w.toNat % 100) ∧ 3 ≤ digit w.toNat (p + 1) ∧
      ∀ q, 1 ≤ q → q < p → digit w.toNat (q + 1) < 3) ∧
    (decode w = .error (.illegalWriteMode p) ↔
      0 ≤ w.toInt ∧
      ((p = 3 ∧ (w.toNat % 100 = 1 ∨ w.toNat % 100 = 2 ∨ w.toNat % 100 = 7 ∨ w.toNat % 100 = 8)) ∨
        (p = 1 ∧ w.toNat % 100 = 3)) ∧
      digit w.toNat (p + 1) = 1 ∧ ∀ q, 1 ≤ q → q < p → digit w.toNat (q + 1) < 3)) ∧
  (∀ (s : State) (r : Run) (w : Word) (p : Nat),
    s.coreSteps r → s.inSpace s.pc → s.mem.read s.pc.toNat = w →
    (decode w = .error .unknownOpcode →
      step s = .next (s.raise { kind := .unknownOpcode, param := none }) ∧
      (s.raise { kind := .unknownOpcode, param := none }).fault =
        some { kind := .unknownOpcode, code := 1, atPc := s.pc, word := some w, param := none }) ∧
    (decode w = .error (.illegalWriteMode p) →
      step s = .next (s.raise { kind := .illegalWriteMode, param := some p }) ∧
      (s.raise { kind := .illegalWriteMode, param := some p }).fault =
        some { kind := .illegalWriteMode, code := 2, atPc := s.pc, word := some w, param := some p }) ∧
    (decode w = .error (.illegalMode p) →
      step s = .next (s.raise { kind := .illegalMode, param := some p }) ∧
      (s.raise { kind := .illegalMode, param := some p }).fault =
        some { kind := .illegalMode, code := 4, atPc := s.pc, word := some w, param := some p }))

/-! ## Arithmetic, memory, operands -/

/-- `wrap64(z) = ((z + 2^63) mod 2^64) - 2^63` (00_scope.md section 5), so it leaves every member of I64 as it is. -/
def Obligations.WrapIsCongruentInRange : Prop :=
  ∀ z : Int,
    (wrap64 z).toInt = (z + 2 ^ 63) % 2 ^ 64 - 2 ^ 63 ∧
    (-2 ^ 63 ≤ z → z ≤ 2 ^ 63 - 1 → (wrap64 z).toInt = z)

/-- 20_memory.md R54: `MemRead(a, 1)` raises NegativeAddress below 0 and CapacityExceeded from ADDR_LIMIT on, and else
returns the cell, 0 if nothing was written there. It changes no state: it answers a value only. -/
def Obligations.MemReadChecksThenReads : Prop :=
  ∀ (s : State) (a : Int) (param : Option Nat),
    (a < 0 → s.memRead a param = .error { kind := .negativeAddress, param := param }) ∧
    (0 ≤ a → (s.cfg.addrLimit : Int) ≤ a →
      s.memRead a param = .error { kind := .capacityExceeded, param := param }) ∧
    (0 ≤ a → a < (s.cfg.addrLimit : Int) → s.memRead a param = .ok (s.mem.read a.toNat)) ∧
    (0 ≤ a → a < (s.cfg.addrLimit : Int) → (∀ c ∈ s.mem, c.1 ≠ a.toNat) → s.memRead a param = .ok 0)

/-- 20_memory.md R55: a write raises NegativeAddress below 0 and CapacityExceeded from ADDR_LIMIT on; both checks are made
when the operand is resolved, so that the address an instruction writes exists; the write then stores the value unchanged
in that one cell and leaves every other cell, and every other part of the state, as it was. -/
def Obligations.MemWriteStoresOneCell : Prop :=
  ∀ (s : State) (param : Option Nat) (p : Nat) (m : Mode) (v : Word),
    (∀ a : Int, a < 0 → s.checkAddr a param = .error { kind := .negativeAddress, param := param }) ∧
    (∀ a : Int, 0 ≤ a → (s.cfg.addrLimit : Int) ≤ a →
      s.checkAddr a param = .error { kind := .capacityExceeded, param := param }) ∧
    (∀ a : Int, 0 ≤ a → a < (s.cfg.addrLimit : Int) → s.checkAddr a param = .ok a.toNat) ∧
    (∀ d, s.dst p m = .ok d → d < s.cfg.addrLimit) ∧
    (s.mem.wf → ∀ d, (s.memWrite d v).mem.read d = v ∧
      (∀ b, b ≠ d → (s.memWrite d v).mem.read b = s.mem.read b) ∧
      s.memWrite d v = { s with mem := (s.memWrite d v).mem })

/-- Two memories in canonical form that hold the same value at every address are equal data (10_state.md section 7: "two
snapshots are equal when they give the same value at every address"; D24). -/
def Obligations.EqualMemoriesAreEqualData : Prop :=
  ∀ m n : Memory, m.wf → n.wf → (∀ a, m.read a = n.read a) → m = n

/-- 40_operands.md R112: the value of a read parameter whose cell exists: in immediate mode the literal unmodified, in
position mode the cell it addresses, in relative mode the cell at its offset from the present `rb`. -/
def Obligations.ReadOperandFollowsItsMode : Prop :=
  ∀ (s : State) (p : Nat) (raw : Word),
    s.inSpace (s.pc + p) → s.mem.read (s.pc + p).toNat = raw →
    s.val p .immediate = .ok raw ∧
    (s.inSpace raw.toInt → s.val p .position = .ok (s.mem.read raw.toInt.toNat)) ∧
    (s.inSpace (s.rb.toInt + raw.toInt) →
      s.val p .relative = .ok (s.mem.read (s.rb.toInt + raw.toInt).toNat))

/-- The effective address is the exact integer, never wrapped; below 0 it raises NegativeAddress(p) and from ADDR_LIMIT on
CapacityExceeded(p), for reading and for writing; a write operand is the address itself, whose cell is not read
(40_operands.md sections 2 and 4). Rests on D5. -/
def Obligations.EffectiveAddressIsExact : Prop :=
  ∀ (s : State) (p : Nat) (m : Mode) (raw : Word) (a : Int),
    s.inSpace (s.pc + p) → s.mem.read (s.pc + p).toNat = raw →
    (m = .position ∧ a = raw.toInt ∨ m = .relative ∧ a = s.rb.toInt + raw.toInt) →
    (a < 0 → s.val p m = .error { kind := .negativeAddress, param := some p } ∧
      s.dst p m = .error { kind := .negativeAddress, param := some p }) ∧
    ((s.cfg.addrLimit : Int) ≤ a → 0 ≤ a →
      s.val p m = .error { kind := .capacityExceeded, param := some p } ∧
      s.dst p m = .error { kind := .capacityExceeded, param := some p }) ∧
    (s.inSpace a → s.dst p m = .ok a.toNat) ∧
    (∀ other : Memory, other.read (s.pc + p).toNat = raw → State.dst { s with mem := other } p m = s.dst p m)

/-- An instruction with a parameter that does not resolve takes the fault of the first such parameter, whether or not it
would use it (40_operands.md section 6, 60_exceptions.md section 1). Rests on D9 (operands of a jump not taken) and D10
(the order). `State.operandTrap` says which fault a parameter's is. For an ill-formed instruction, with a write parameter in
immediate mode, that the fault is IllegalWriteMode and comes after those of the parameters before it is the model's own
choice (log 9): the spec raises it at decode, so that no step executes such an instruction. -/
def Obligations.FirstUnresolvableParameterFaults : Prop :=
  ∀ (s : State) (a b c : Mode),
    (∀ i, (i = .add a b c ∨ i = .multiply a b c ∨ i = .lessThan a b c ∨ i = .equals a b c) →
      (¬ s.readable 1 a → exec i s = .next (s.raise (s.operandTrap 1 a))) ∧
      (s.readable 1 a → ¬ s.readable 2 b → exec i s = .next (s.raise (s.operandTrap 2 b))) ∧
      (s.readable 1 a → s.readable 2 b → ¬ s.writable 3 c → exec i s = .next (s.raise (s.operandTrap 3 c)))) ∧
    (∀ i, (i = .jumpIfTrue a b ∨ i = .jumpIfFalse a b) →
      (¬ s.readable 1 a → exec i s = .next (s.raise (s.operandTrap 1 a))) ∧
      (s.readable 1 a → ¬ s.readable 2 b → exec i s = .next (s.raise (s.operandTrap 2 b)))) ∧
    (∀ i, (i = .output a ∨ i = .adjustBase a) →
      ¬ s.readable 1 a → exec i s = .next (s.raise (s.operandTrap 1 a))) ∧
    (¬ s.writable 1 c → exec (.input c) s = .next (s.raise (s.operandTrap 1 c)))

/-! ## The instructions: where each completes, and with what result -/

/-- `add` (41_arithmetic.md): with its operands resolvable it stores the exact sum, wrapped, and retires at pc + 4. Rests
on D2 (wrapping). -/
def Obligations.AddStoresTheWrappedSum : Prop :=
  ∀ (a b c : Mode) (s : State), s.readable 1 a → s.readable 2 b → s.writable 3 c →
    exec (.add a b c) s = .next
      { s with
        mem := s.mem.write (s.target 3 c) (wrap64 ((s.value 1 a).toInt + (s.value 2 b).toInt)),
        pc := s.pc + 4,
        run := s.run.map Run.count }

/-- `multiply` (41_arithmetic.md): with its operands resolvable it stores the exact product, wrapped, and retires at
pc + 4. Rests on D2 (wrapping). -/
def Obligations.MultiplyStoresTheWrappedProduct : Prop :=
  ∀ (a b c : Mode) (s : State), s.readable 1 a → s.readable 2 b → s.writable 3 c →
    exec (.multiply a b c) s = .next
      { s with
        mem := s.mem.write (s.target 3 c) (wrap64 ((s.value 1 a).toInt * (s.value 2 b).toInt)),
        pc := s.pc + 4,
        run := s.run.map Run.count }

/-- `less-than` (44_compare.md): with its operands resolvable it stores 1 if the first is less than the second as signed
integers and 0 if not, and retires at pc + 4. -/
def Obligations.LessThanStoresTheTruthValue : Prop :=
  ∀ (a b c : Mode) (s : State), s.readable 1 a → s.readable 2 b → s.writable 3 c →
    exec (.lessThan a b c) s = .next
      { s with
        mem := s.mem.write (s.target 3 c) (if (s.value 1 a).toInt < (s.value 2 b).toInt then 1 else 0),
        pc := s.pc + 4,
        run := s.run.map Run.count }

/-- `equals` (44_compare.md): with its operands resolvable it stores 1 if they are equal in all 64 bits and 0 if not, and
retires at pc + 4. -/
def Obligations.EqualsStoresTheTruthValue : Prop :=
  ∀ (a b c : Mode) (s : State), s.readable 1 a → s.readable 2 b → s.writable 3 c →
    exec (.equals a b c) s = .next
      { s with
        mem := s.mem.write (s.target 3 c) (if s.value 1 a = s.value 2 b then 1 else 0),
        pc := s.pc + 4,
        run := s.run.map Run.count }

/-- `input` with a value queued (42_io.md): with its destination resolvable it takes the head of the queue, stores it
unchanged and retires at pc + 2. -/
def Obligations.InputStoresTheHeadOfTheQueue : Prop :=
  ∀ (c : Mode) (s : State) (x : Word) (rest : List Word), s.writable 1 c → s.inq = x :: rest →
    exec (.input c) s = .next
      { s with
        mem := s.mem.write (s.target 1 c) x,
        inq := rest,
        pc := s.pc + 2,
        run := s.run.map Run.count }

/-- `input` with an empty queue (42_io.md): under the streaming policy the status becomes Blocked and the run returns
BlockedOnInput, under the batch policy InputExhausted is taken; nothing else changes, the pc stays at the instruction, and
it is not counted. Rests on D13. Outside a run there is no policy, and the model stops (log 8). -/
def Obligations.InputOnAnEmptyQueue : Prop :=
  ∀ (c : Mode) (s : State), s.writable 1 c → s.inq = [] →
    (∀ r, s.run = some r → r.policy = .streaming →
      exec (.input c) s = .next (State.returned { s with status := .blocked } r .blockedOnInput)) ∧
    (∀ r, s.run = some r → r.policy = .batch →
      exec (.input c) s = .next (s.raise { kind := .inputExhausted, param := none })) ∧
    (s.run = none → exec (.input c) s = .fault .noRunInProgress)

/-- `output` (42_io.md): with its operand resolvable it appends the value unchanged and retires at pc + 2. -/
def Obligations.OutputAppendsTheValue : Prop :=
  ∀ (a : Mode) (s : State), s.readable 1 a →
    exec (.output a) s = .next
      { s with out := s.out ++ [s.value 1 a], pc := s.pc + 2, run := s.run.map Run.count }

/-- `jump-if-true` (43_jumps.md): with both operands resolvable it retires at the target, whatever that is, if the first
is not 0, and at pc + 3 if it is. Rests on D4 (a bad target is loaded) and D9. -/
def Obligations.JumpIfTrueJumpsOnNonZero : Prop :=
  ∀ (a b : Mode) (s : State), s.readable 1 a → s.readable 2 b →
    exec (.jumpIfTrue a b) s = .next
      { s with
        pc := if (s.value 1 a).toInt ≠ 0 then (s.value 2 b).toInt else s.pc + 3,
        run := s.run.map Run.count }

/-- `jump-if-false` (43_jumps.md): with both operands resolvable it retires at the target, whatever that is, if the first
is 0, and at pc + 3 if it is not. Rests on D4 (a bad target is loaded) and D9. -/
def Obligations.JumpIfFalseJumpsOnZero : Prop :=
  ∀ (a b : Mode) (s : State), s.readable 1 a → s.readable 2 b →
    exec (.jumpIfFalse a b) s = .next
      { s with
        pc := if (s.value 1 a).toInt = 0 then (s.value 2 b).toInt else s.pc + 3,
        run := s.run.map Run.count }

/-- `adjust-base` (45_adjust_base.md): with its operand resolvable (through the OLD base) it adds the value to `rb`,
wrapped, and retires at pc + 2. Rests on D3 (wrapping). -/
def Obligations.AdjustBaseAddsToTheBase : Prop :=
  ∀ (a : Mode) (s : State), s.readable 1 a →
    exec (.adjustBase a) s = .next
      { s with
        rb := wrap64 (s.rb.toInt + (s.value 1 a).toInt),
        pc := s.pc + 2,
        run := s.run.map Run.count }

/-- `halt` (46_halt.md): the status becomes Halted, the run returns Halted, and nothing else changes: the pc stays at the
halt word (D23), and no parameter is fetched, so that halt completes in every state. -/
def Obligations.HaltEndsTheRun : Prop :=
  ∀ s : State,
    (∀ r, s.run = some r → exec .halt s = .next (State.returned { s with status := .halted } r .halted)) ∧
    (s.run = none → exec .halt s = .next { s with status := .halted })

/-! ## Frames: what an instruction leaves unchanged -/

/-- The frame of add, multiply, less-than and equals: but for `mem` at the destination, `pc` and the run's count nothing
changes; with a fault nothing changes but `status`, `fault`, and the run, which returns. -/
def Obligations.StoringBinaryFrame : Prop :=
  ∀ (i : Instr) (a b c : Mode) (s t : State),
    (i = .add a b c ∨ i = .multiply a b c ∨ i = .lessThan a b c ∨ i = .equals a b c) →
    exec i s = .next t →
    t.cfg = s.cfg ∧ t.image = s.image ∧ t.rb = s.rb ∧ t.inq = s.inq ∧ t.out = s.out ∧ t.calls = s.calls ∧
    (∀ addr, (∀ d, s.dst 3 c = .ok d → addr ≠ d) → t.mem.read addr = s.mem.read addr) ∧
    (∀ v, s.resolveRRW a b c = .ok v → t.status = s.status ∧ t.fault = s.fault ∧ t.replies = s.replies ∧
      t.run = s.run.map Run.count) ∧
    (∀ e, s.resolveRRW a b c = .error e → t.pc = s.pc ∧ t.run = none ∧ ∀ addr, t.mem.read addr = s.mem.read addr)

/-- The frame of input: but for `mem` at the destination, the head of the queue, `pc` and the run's count nothing changes;
where it blocks or faults nothing changes but `status`, `fault` and the run, which returns. -/
def Obligations.InputFrame : Prop :=
  ∀ (c : Mode) (s t : State), exec (.input c) s = .next t →
    t.cfg = s.cfg ∧ t.image = s.image ∧ t.rb = s.rb ∧ t.out = s.out ∧ t.calls = s.calls ∧
    (∀ addr, (∀ d, s.dst 1 c = .ok d → addr ≠ d) → t.mem.read addr = s.mem.read addr) ∧
    ((∃ d, s.dst 1 c = .ok d) → s.inq ≠ [] → t.status = s.status ∧ t.fault = s.fault ∧ t.replies = s.replies ∧
      t.inq = s.inq.tail ∧ t.run = s.run.map Run.count) ∧
    ((∃ e, s.dst 1 c = .error e) ∨ s.inq = [] →
      t.pc = s.pc ∧ t.inq = s.inq ∧ t.run = none ∧ ∀ addr, t.mem.read addr = s.mem.read addr)

/-- The frame of output: but for the log, `pc` and the run's count nothing changes; with a fault nothing changes but
`status`, `fault` and the run, which returns. It stores nothing. -/
def Obligations.OutputFrame : Prop :=
  ∀ (a : Mode) (s t : State), exec (.output a) s = .next t →
    t.cfg = s.cfg ∧ t.image = s.image ∧ t.rb = s.rb ∧ t.inq = s.inq ∧ t.calls = s.calls ∧
    (∀ addr, t.mem.read addr = s.mem.read addr) ∧
    (∀ v, s.val 1 a = .ok v → t.status = s.status ∧ t.fault = s.fault ∧ t.replies = s.replies ∧
      t.run = s.run.map Run.count) ∧
    (∀ e, s.val 1 a = .error e → t.pc = s.pc ∧ t.out = s.out ∧ t.run = none)

/-- The frame of the jumps: but for `pc` and the run's count nothing changes; with a fault nothing changes but `status`,
`fault` and the run, which returns. They store nothing. -/
def Obligations.JumpFrame : Prop :=
  ∀ (i : Instr) (a b : Mode) (s t : State), (i = .jumpIfTrue a b ∨ i = .jumpIfFalse a b) → exec i s = .next t →
    t.cfg = s.cfg ∧ t.image = s.image ∧ t.rb = s.rb ∧ t.inq = s.inq ∧ t.out = s.out ∧ t.calls = s.calls ∧
    (∀ addr, t.mem.read addr = s.mem.read addr) ∧
    (∀ v, s.resolveRR a b = .ok v → t.status = s.status ∧ t.fault = s.fault ∧ t.replies = s.replies ∧
      t.run = s.run.map Run.count) ∧
    (∀ e, s.resolveRR a b = .error e → t.pc = s.pc ∧ t.run = none)

/-- The frame of adjust-base: but for `rb`, `pc` and the run's count nothing changes; with a fault nothing changes but
`status`, `fault` and the run, which returns. It stores nothing. -/
def Obligations.AdjustBaseFrame : Prop :=
  ∀ (a : Mode) (s t : State), exec (.adjustBase a) s = .next t →
    t.cfg = s.cfg ∧ t.image = s.image ∧ t.inq = s.inq ∧ t.out = s.out ∧ t.calls = s.calls ∧
    (∀ addr, t.mem.read addr = s.mem.read addr) ∧
    (∀ v, s.val 1 a = .ok v → t.status = s.status ∧ t.fault = s.fault ∧ t.replies = s.replies ∧
      t.run = s.run.map Run.count) ∧
    (∀ e, s.val 1 a = .error e → t.pc = s.pc ∧ t.rb = s.rb ∧ t.run = none)

/-- The frame of halt: nothing changes but `status` and the run, which returns. It stores nothing. -/
def Obligations.HaltFrame : Prop :=
  ∀ s t : State, exec .halt s = .next t →
    t.cfg = s.cfg ∧ t.image = s.image ∧ t.pc = s.pc ∧ t.rb = s.rb ∧ t.fault = s.fault ∧ t.inq = s.inq ∧
    t.out = s.out ∧ t.calls = s.calls ∧ t.run = none ∧ ∀ addr, t.mem.read addr = s.mem.read addr

/-! ## The step and the loop -/

/-- A step in a run with budget left, on a Running or Blocked machine whose word at `pc` exists and decodes to `i`, is
`exec i` of the state as it is; nothing is added around it (the count of the run and its return are in `exec`). -/
def Obligations.StepRunsTheDecodedInstruction : Prop :=
  ∀ (s : State) (r : Run) (i : Instr), s.run = some r → r.spent = false →
    (s.status = .running ∨ s.status = .blocked) →
    0 ≤ s.pc → s.pc < (s.cfg.addrLimit : Int) → decode (s.mem.read s.pc.toNat) = .ok i →
    step s = exec i s

/-- 47_dispatch_loop.md R181: a negative `pc` raises NegativeAddress and one from ADDR_LIMIT on CapacityExceeded, both with
`word` and `param` none in the record; otherwise the word is the cell's value as memory stands now, a store before it
seen, and a cell never written holds the word 0, which raises UnknownOpcode. -/
def Obligations.FetchFaultsNameNoWord : Prop :=
  ∀ (s : State) (r : Run), s.coreSteps r →
    (s.pc < 0 → step s = .next (s.raise { kind := .negativeAddress, param := none }) ∧
      (s.raise { kind := .negativeAddress, param := none }).fault =
        some { kind := .negativeAddress, code := 3, atPc := s.pc, word := none, param := none }) ∧
    (0 ≤ s.pc → (s.cfg.addrLimit : Int) ≤ s.pc →
      step s = .next (s.raise { kind := .capacityExceeded, param := none }) ∧
      (s.raise { kind := .capacityExceeded, param := none }).fault =
        some { kind := .capacityExceeded, code := 5, atPc := s.pc, word := none, param := none }) ∧
    (s.inSpace s.pc → s.fetch = .ok (s.mem.read s.pc.toNat) ∧
      (s.mem.wf → ∀ v, (s.memWrite s.pc.toNat v).fetch = .ok v)) ∧
    (s.inSpace s.pc → (∀ c ∈ s.mem, c.1 ≠ s.pc.toNat) →
      s.fetch = .ok 0 ∧ step s = .next (s.raise { kind := .unknownOpcode, param := none }))

/-- 47_dispatch_loop.md R182: a step of the core retires, halts, blocks or faults. Retired: opcodes 1 to 9, input only with
a queued value; the pc advanced or jumped; status and fault as before. HaltNow: `halt`; the pc unchanged. Block: `input`,
queue empty, streaming; only the status changes. Fault: only the status and the fault record change, and the record fits the step. The run goes on after
Retired and returns after the others. -/
def Obligations.StepHasFourResults : Prop :=
  ∀ (s t : State) (r : Run), s.coreSteps r → step s = .next t →
    (∃ i, s.nextInstr = some i ∧ i ≠ .halt ∧ (∀ m, i = .input m → s.inq ≠ []) ∧
      t.run = some r.count ∧ t.status = s.status ∧ t.fault = s.fault ∧ t.replies = s.replies ∧
      (t.pc = s.pc + i.length ∨
        ∃ a b, (i = .jumpIfTrue a b ∨ i = .jumpIfFalse a b) ∧ s.readable 2 b ∧ t.pc = (s.value 2 b).toInt)) ∨
    (s.nextInstr = some .halt ∧ t = State.returned { s with status := .halted } r .halted) ∨
    (∃ m, s.nextInstr = some (.input m) ∧ s.inq = [] ∧ r.policy = .streaming ∧
      t = State.returned { s with status := .blocked } r .blockedOnInput) ∨
    (∃ f, s.recordFits f ∧ t = State.returned { s with status := .faulted, fault := some f } r (.fault (some f)))

/-- Taking a fault (60_exceptions.md section 1): the status is Faulted, the record holds the fault, its code number, the
pc and the word of the step and the parameter, the run returns Fault with that record, and all else is as it was. Rests on
D11 (the Faulted status) and D12 (codes and record). -/
def Obligations.TakingAFaultRecordsIt : Prop :=
  (∀ (s : State) (t : Trap) (r : Run), s.run = some r →
    s.raise t = State.returned
      { s with
        status := .faulted,
        fault := some { kind := t.kind, code := t.kind.code, atPc := s.pc, param := t.param,
                        word := if s.inSpace s.pc then some (s.mem.read s.pc.toNat) else none } }
      r (.fault (s.raise t).fault)) ∧
  FaultKind.unknownOpcode.code = 1 ∧ FaultKind.illegalWriteMode.code = 2 ∧ FaultKind.negativeAddress.code = 3 ∧
  FaultKind.illegalMode.code = 4 ∧ FaultKind.capacityExceeded.code = 5 ∧ FaultKind.inputExhausted.code = 6

/-- Which instruction raises which fault (60_exceptions.md section 1): an address fault of one of its parameters, and
InputExhausted only `input`, only under batch and only with an empty queue; halt raises none. An ill-formed instruction,
which no word decodes to, can also raise IllegalWriteMode (log 9). -/
def Obligations.InstructionsRaiseOnlyTheirFaults : Prop :=
  ∀ (i : Instr) (s t : State), exec i s = .next t → s.status ≠ .faulted → t.status = .faulted →
    i ≠ .halt ∧ ∃ f, t.fault = some f ∧ s.recordFits f ∧
      (((f.kind = .negativeAddress ∨ f.kind = .capacityExceeded) ∧
          ∃ p, f.param = some p ∧ 1 ≤ p ∧ p ≤ i.modes.length) ∨
        (f.kind = .illegalWriteMode ∧ i.wf = false) ∨
        (f.kind = .inputExhausted ∧ f.param = none ∧ s.inq = [] ∧
          ∃ m r, i = .input m ∧ s.run = some r ∧ r.policy = .batch))

/-- The step budget (47_dispatch_loop.md section 2): it is tested before each fetch; a budget that is given, not negative
and reached ends the run with BudgetExhausted and changes nothing else; a negative or omitted one never does; a run with
budget 0 executes nothing and returns no output. Rests on D16. A run that never returns gives the host nothing: it is a
non-terminating execution and no outcome (70_reset_and_hazards.md section 4; log 16). -/
def Obligations.BudgetIsTestedBeforeEachFetch : Prop :=
  (∀ (s : State) (r : Run) (b : Int), s.run = some r → (s.status = .running ∨ s.status = .blocked) →
    r.budget = some b → 0 ≤ b → b ≤ (r.executed : Int) → step s = .next (s.returned r .budgetExhausted)) ∧
  (∀ (r : Run), (r.budget = none ∨ ∃ b, r.budget = some b ∧ (b < 0 ∨ (r.executed : Int) < b)) → r.spent = false) ∧
  (∀ (s : State) (p : Policy) (rest : List HostCall), s.run = none → s.calls = .run p (some 0) :: rest →
    (s.status = .running ∨ s.status = .blocked) →
    ∃ t, step s = .next t ∧
      step t = .next { s with calls := rest, replies := s.replies ++ [.ran .budgetExhausted []] }) ∧
  (∀ s : State, s.neverReturns → ∀ n, (State.after n s).replies = s.replies)

/-- 47_dispatch_loop.md R188: a run on a Halted machine executes nothing, changes nothing, and returns `(Halted, [])`,
whatever the policy and the budget, a zero budget included. -/
def Obligations.RunOnAHaltedMachineReturnsAtOnce : Prop :=
  ∀ (s : State) (p : Policy) (b : Option Int) (rest : List HostCall),
    s.run = none → s.calls = .run p b :: rest → s.status = .halted →
    ∃ t, step s = .next t ∧
      step t = .next { s with calls := rest, replies := s.replies ++ [.ran .halted []] }

/-- A run on a Faulted machine executes nothing, changes nothing, and returns the recorded fault and no output, whatever
the policy and the budget (47_dispatch_loop.md section 3). Rests on D11 (the fault is sticky). -/
def Obligations.RunOnAFaultedMachineReturnsTheFault : Prop :=
  ∀ (s : State) (p : Policy) (b : Option Int) (rest : List HostCall),
    s.run = none → s.calls = .run p b :: rest → s.status = .faulted →
    ∃ t, step s = .next t ∧
      step t = .next { s with calls := rest, replies := s.replies ++ [.ran (.fault s.fault) []] }

/-- 47_dispatch_loop.md R187: a run treats Blocked like Running: it fetches the same instruction and decides afresh. A push
has made the machine Running, and the input consumes the value; without one a streaming run blocks again with nothing
changed and a batch run raises InputExhausted. -/
def Obligations.BlockedMachineRetriesTheInput : Prop :=
  (∀ (s : State) (i : Instr), s.status = .blocked →
    (s.turn = .execute i ↔ State.turn { s with status := .running } = .execute i)) ∧
  (∀ (s : State) (v : Word), s.status = .blocked → (s.pushInput v).status = .running) ∧
  (∀ (s : State) (r : Run) (m : Mode) (x : Word) (rest : List Word), s.coreSteps r →
    s.nextInstr = some (.input m) → s.writable 1 m → s.inq = x :: rest →
    step s = .next { s with mem := s.mem.write (s.target 1 m) x, inq := rest, pc := s.pc + 2, run := some r.count }) ∧
  (∀ (s : State) (r : Run) (m : Mode), s.coreSteps r → s.status = .blocked →
    s.nextInstr = some (.input m) → s.writable 1 m → s.inq = [] →
    (r.policy = .streaming → step s = .next (s.returned r .blockedOnInput)) ∧
    (r.policy = .batch → step s = .next (s.raise { kind := .inputExhausted, param := none })))

/-- 47_dispatch_loop.md R186: the call of a run opens it with the policy and the budget given, its count at 0 and its mark at
the length of the log, and does nothing else; a step of it that does not end it keeps the mark and
leaves the log as it is, or appends one value by an output instruction; and the step that ends it, with whatever outcome,
gives the host the entries from the mark on, in order, and the log itself keeps everything. -/
def Obligations.RunReturnsWhatItAppended : Prop :=
  (∀ (s : State) (p : Policy) (b : Option Int) (rest : List HostCall),
    s.run = none → s.calls = .run p b :: rest →
    step s = .next
      { s with
        calls := rest,
        run := some { policy := p, budget := b, executed := 0, mark := s.out.length } }) ∧
  (∀ (s t : State) (r : Run), s.run = some r → step s = .next t →
    (t.run = some r.count ∧ t.replies = s.replies ∧
      (t.out = s.out ∨ ∃ a v, s.nextInstr = some (.output a) ∧ t.out = s.out ++ [v])) ∨
    (t.run = none ∧ t.out = s.out ∧ ∃ o, t.replies = s.replies ++ [.ran o (t.out.drop r.mark)]))

/-- 47_dispatch_loop.md R185: the step that ends a run returns exactly one outcome: Halted on a Halted machine;
BlockedOnInput when the next instruction is an input, the queue is empty and the policy is streaming; BudgetExhausted when
the budget is spent; Fault with the fault record on a Faulted machine. -/
def Obligations.RunOutcomesMeanWhatTheySay : Prop :=
  ∀ (s t : State) (r : Run), s.run = some r → step s = .next t → t.run = none →
    ∃ o new, t.replies = s.replies ++ [.ran o new] ∧
      (o = .halted → t.status = .halted) ∧
      (o = .blockedOnInput → t.status = .blocked ∧ t.inq = [] ∧ r.policy = .streaming ∧
        ∃ m, t.nextInstr = some (.input m)) ∧
      (o = .budgetExhausted → r.spent = true ∧ t.status = s.status) ∧
      (∀ f, o = .fault f → t.status = .faulted ∧ t.fault = f)

/-! ## Whole-machine rules -/

/-- 10_state.md R25: the image is the one given at create; no instruction reads or writes it, and a store changes `mem`,
never the image; of the host's calls only reset reads it (create replaces it with a new machine's). -/
def Obligations.ImageIsImmutable : Prop :=
  (∀ (s : State) (image : List Int), imageOk s.cfg image = true →
    (s.create image).image.map BitVec.toInt = image) ∧
  (∀ (i : Instr) (s t : State) (image : List Word), exec i s = .next t →
    t.image = s.image ∧ exec i { s with image := image } = .next { t with image := image }) ∧
  (∀ (s t : State), step s = .next t → (∀ image, s.nextCall ≠ some (.create image)) → t.image = s.image) ∧
  (∀ (s : State) (c : HostCall) (image : List Word), c ≠ .reset → (∀ im, c ≠ .create im) →
    State.hostCall { s with image := image } c = { s.hostCall c with image := image }) ∧
  (∀ (s : State) (a : Nat), s.hostReset.mem.read a = s.image.getD a 0)

/-- 10_state.md R27: only `output` appends to the log, one value at its end; the core never removes or rewrites an entry;
reset, save and restore leave it; only drain_output empties it (a created machine begins with its own, empty); output never
blocks, and appends whatever the log's length; a checkpoint does not hold it. -/
def Obligations.OutputLogIsAppendOnly : Prop :=
  (∀ (i : Instr) (s t : State), exec i s = .next t →
    t.out = s.out ∨ ∃ a, i = .output a ∧ s.readable 1 a ∧ t.out = s.out ++ [s.value 1 a]) ∧
  (∀ (s t : State), step s = .next t → s.nextCall ≠ some .drainOutput →
    (∀ image, s.nextCall ≠ some (.create image)) → s.out <+: t.out) ∧
  (∀ (s : State) (c : Checkpoint), s.hostReset.out = s.out ∧ s.save.out = s.out ∧ (s.restore c).out = s.out ∧
    s.drainOutput.out = []) ∧
  (∀ (a : Mode) (s t : State), exec (.output a) s = .next t → t.status = s.status ∨ t.status = .faulted) ∧
  (∀ (a : Mode) (s : State), s.readable 1 a → ∃ t, exec (.output a) s = .next t ∧ t.out = s.out ++ [s.value 1 a]) ∧
  (∀ (s : State) (log : List Word), State.checkpoint { s with out := log } = s.checkpoint)

/-- The transitions of the status (10_state.md section 5): Running or Blocked becomes Blocked, Halted or Faulted only by a
step of the core; Blocked becomes Running when input arrives; Halted and Faulted are left only by reset, by restore, or by
the creation of a new machine, which all lead to Running, restore also to Halted. Rests on D11 and D18. -/
def Obligations.StatusChangesOnlyByTheseEvents : Prop :=
  ∀ s t : State, step s = .next t → t.status ≠ s.status →
    (∃ r, s.coreSteps r ∧
      ((t.status = .halted ∧ s.nextInstr = some .halt) ∨
       (t.status = .blocked ∧ r.policy = .streaming ∧ s.inq = [] ∧ ∃ m, s.nextInstr = some (.input m)) ∨
       (t.status = .faulted ∧ ∃ f, t.fault = some f ∧ s.recordFits f))) ∨
    (s.status = .blocked ∧ t.status = .running ∧ ∃ v, s.nextCall = some (.pushInput v)) ∨
    (t.status = .running ∧ s.nextCall = some .reset) ∨
    (t.status = .running ∧ ∃ image, s.nextCall = some (.create image)) ∨
    (∃ c, s.nextCall = some (.restore c) ∧ t.status = if c.doneFlag then .halted else .running)

/-- What writes `mem`, `rb`, `inq`, `pc`, the fault record and the run (10_state.md sections 2 to 5), and that nothing
writes ADDR_LIMIT: memory only add, multiply, input, less-than and equals; the base only adjust-base; the queue only input;
the pc only an instruction that retires, by its length or to a jump's target; the fault record only a step of the core that
raises; and of the host's calls only create, reset and restore, for the queue push_input in restore's place. A run is opened
by the call of it and changed only by the core. (The image, the log and the status have statements of their own.) Rests on
D4 (the pc), D11 and D12 (the fault), D14 and D17 (the queue), D18 (restore) and log 2 and 3. -/
def Obligations.StateIsWrittenOnlyByItsWriters : Prop :=
  ∀ s t : State, step s = .next t →
    t.cfg = s.cfg ∧
    (t.mem ≠ s.mem →
      (∃ r i a b c, s.coreSteps r ∧ s.nextInstr = some i ∧
        (i = .add a b c ∨ i = .multiply a b c ∨ i = .lessThan a b c ∨ i = .equals a b c ∨ i = .input c)) ∨
      s.nextCall = some .reset ∨ (∃ c, s.nextCall = some (.restore c)) ∨
      ∃ image, s.nextCall = some (.create image)) ∧
    (t.rb ≠ s.rb →
      (∃ r a, s.coreSteps r ∧ s.nextInstr = some (.adjustBase a)) ∨
      s.nextCall = some .reset ∨ (∃ c, s.nextCall = some (.restore c)) ∨
      ∃ image, s.nextCall = some (.create image)) ∧
    (t.inq ≠ s.inq →
      (∃ r c x, s.coreSteps r ∧ s.nextInstr = some (.input c) ∧ s.inq = x :: t.inq) ∨
      (∃ v, s.nextCall = some (.pushInput v) ∧ t.inq = s.inq ++ [v]) ∨
      (s.nextCall = some .reset ∧ t.inq = []) ∨
      ∃ image, s.nextCall = some (.create image) ∧ t.inq = []) ∧
    (t.pc ≠ s.pc →
      (∃ r i, s.coreSteps r ∧ s.nextInstr = some i ∧ i ≠ .halt ∧ t.run = some r.count ∧
        (t.pc = s.pc + i.length ∨
          ∃ a b, (i = .jumpIfTrue a b ∨ i = .jumpIfFalse a b) ∧ s.readable 2 b ∧ t.pc = (s.value 2 b).toInt)) ∨
      (s.nextCall = some .reset ∧ t.pc = 0) ∨
      (∃ c, s.nextCall = some (.restore c) ∧ t.pc = c.programCounter) ∨
      ∃ image, s.nextCall = some (.create image) ∧ t.pc = 0) ∧
    (t.fault ≠ s.fault →
      (∃ r f, s.coreSteps r ∧ t.fault = some f ∧ s.recordFits f ∧ t.status = .faulted) ∨
      (s.nextCall = some .reset ∧ t.fault = none) ∨
      (∃ c, s.nextCall = some (.restore c) ∧ t.fault = none) ∨
      ∃ image, s.nextCall = some (.create image) ∧ t.fault = none) ∧
    (t.run ≠ s.run → (∃ r, s.run = some r) ∨ ∃ p b, s.nextCall = some (.run p b))

/-- Every step keeps the invariant: the memory stays canonical and below ADDR_LIMIT, `-2^63 ≤ pc ≤ 2^63`, a fault is
recorded exactly while the status is Faulted and its record fits the state, a Blocked machine waits at an input whose
destination resolves with its queue empty, and no run retires more than its budget (10_state.md section 8, 47_dispatch_loop.md
section 2). That restore refuses what is no checkpoint of this machine's size is log 11. -/
def Obligations.EveryStepKeepsTheInvariant : Prop :=
  ∀ s t : State, s.Inv → step s = .next t → t.Inv

/-- The state after reset meets the invariant. -/
def Obligations.ResetStateMeetsTheInvariant : Prop := State.reset.Inv

/-- An instruction reads nothing but ADDR_LIMIT, `mem`, `pc`, `rb`, the queue and the policy of the run (47_dispatch_loop.md
section 4): in two states that agree on these it does the same to them, appends the same output, and gives both the same
status and fault record or leaves both as they were. -/
def Obligations.InstructionsReadOnlyTheCoreState : Prop :=
  ∀ (i : Instr) (s t s' : State), SameToCore s t → exec i s = .next s' →
    ∃ t' new, exec i t = .next t' ∧ SameToCore s' t' ∧ s'.out = s.out ++ new ∧ t'.out = t.out ++ new ∧
      ((s'.status = s.status ∧ t'.status = t.status ∧ s'.fault = s.fault ∧ t'.fault = t.fault) ∨
        (s'.status = .faulted ∧ t'.status = .faulted ∧ s'.fault = t'.fault) ∨
        (s'.status = t'.status ∧ s'.fault = s.fault ∧ t'.fault = t.fault))

/-- Checkpoint transparency (47_dispatch_loop.md section 4, 48_host_operations.md): a machine that is not Faulted, saved
and restored between runs, goes on, however the host goes on, exactly as if it had not been: after every number of steps the
same memory, registers, queue, log, fault record and replies, and Halted together. (A Blocked machine is restored to
Running, which the host sees if it inspects the status: such calls are left out. Rests on D18.) -/
def Obligations.SaveThenRestoreIsTransparent : Prop :=
  ∀ (s : State) (n : Nat), s.Inv → s.run = none → s.status ≠ .faulted → HostCall.inspect .status ∉ s.calls →
    let s' := State.after n s
    let t' := State.after n (s.restore s.checkpoint)
    t'.mem = s'.mem ∧ t'.pc = s'.pc ∧ t'.rb = s'.rb ∧ t'.inq = s'.inq ∧ t'.out = s'.out ∧ t'.fault = s'.fault ∧
      t'.run = s'.run ∧ t'.replies = s'.replies ∧ (t'.status = .halted ↔ s'.status = .halted)

/-- Reset and rerun (47_dispatch_loop.md section 4): after `reset()`, whatever came before, the host that pushes the same
inputs and makes the same runs gets the same outcomes and outputs as from a machine freshly created from the image, and the
machine goes through the same states, but that the log still begins with what it held. Rests on D17. -/
def Obligations.ResetThenRerunReproducesTheRun : Prop :=
  ∀ (s : State) (cs : List HostCall) (n : Nat), s.run = none → (∀ c ∈ cs, c.feedsOrRuns = true) →
    let s' := State.after n { s.hostReset with calls := cs }
    let t' := State.after n { State.fresh s.cfg s.image with calls := cs }
    s'.mem = t'.mem ∧ s'.pc = t'.pc ∧ s'.rb = t'.rb ∧ s'.status = t'.status ∧ s'.fault = t'.fault ∧ s'.inq = t'.inq ∧
      s'.out = s.out ++ t'.out ∧ s'.replies = s.replies ++ t'.replies

/-- A store by one instruction is seen by the fetch of the next (20_memory.md section 5): an instruction of format RRW that
stores to pc + 4, and an input that stores to pc + 2, put there the very word the next step fetches. Rests on D2 (the
wrapped sum and product). -/
def Obligations.StoreIsSeenByTheNextFetch : Prop :=
  (∀ (i : Instr) (a b c : Mode) (s t : State) (v1 v2 : Word) (d : Nat), s.mem.wf →
    s.resolveRRW a b c = .ok (v1, v2, d) → s.pc + 4 = (d : Int) →
    ((i = .add a b c → exec i s = .next t → t.fetch = .ok (wrap64 (v1.toInt + v2.toInt))) ∧
     (i = .multiply a b c → exec i s = .next t → t.fetch = .ok (wrap64 (v1.toInt * v2.toInt))) ∧
     (i = .lessThan a b c → exec i s = .next t → t.fetch = .ok (if v1.toInt < v2.toInt then 1 else 0)) ∧
     (i = .equals a b c → exec i s = .next t → t.fetch = .ok (if v1 = v2 then 1 else 0)))) ∧
  (∀ (m : Mode) (s t : State) (x : Word) (rest : List Word) (d : Nat), s.mem.wf →
    s.dst 1 m = .ok d → s.pc + 2 = (d : Int) → s.inq = x :: rest → exec (.input m) s = .next t → t.fetch = .ok x)

/-! ## The host's calls -/

/-- `create(IMAGE)` (48_host_operations.md): an image no longer than ADDR_LIMIT with every value in I64 makes a new machine:
the image in the cells from 0 on and 0 elsewhere, pc 0, rb 0, Running, no fault, empty queue and log; any other image is
refused and nothing changes. Rests on D21 and log 12. -/
def Obligations.CreateMakesTheMachineOrIsRefused : Prop :=
  ∀ (s : State) (image : List Int) (rest : List HostCall), s.run = none → s.calls = .create image :: rest →
    ((image.length ≤ s.cfg.addrLimit ∧ ∀ v ∈ image, -2 ^ 63 ≤ v ∧ v ≤ 2 ^ 63 - 1) →
      ∃ t, step s = .next t ∧ t.image.map BitVec.toInt = image ∧
        (∀ a, (t.mem.read a).toInt = image.getD a 0) ∧
        t.pc = 0 ∧ t.rb.toInt = 0 ∧ t.status = .running ∧ t.fault = none ∧ t.inq = [] ∧ t.out = [] ∧
        t.cfg = s.cfg ∧ t.run = none ∧ t.calls = rest ∧ t.replies = s.replies ++ [.created]) ∧
    (¬ (image.length ≤ s.cfg.addrLimit ∧ ∀ v ∈ image, -2 ^ 63 ≤ v ∧ v ≤ 2 ^ 63 - 1) →
      step s = .next { s with calls := rest, replies := s.replies ++ [.refused] })

/-- `push_input(v)` appends to the queue and makes a Blocked machine Running, and `drain_output()` returns the log and
empties it; neither does anything else (48_host_operations.md). Rests on D14 and D15. -/
def Obligations.PushQueuesAndDrainEmpties : Prop :=
  ∀ (s : State) (rest : List HostCall), s.run = none →
    (∀ v, s.calls = .pushInput v :: rest →
      step s = .next
        { s with
          calls := rest, inq := s.inq ++ [v],
          status := if s.status = .blocked then .running else s.status }) ∧
    (s.calls = .drainOutput :: rest →
      step s = .next { s with calls := rest, out := [], replies := s.replies ++ [.drained s.out] })

/-- `reset()` (48_host_operations.md): memory from the image and 0 elsewhere, pc 0, rb 0, Running, no fault, empty queue;
log and image unchanged. Rests on D17. -/
def Obligations.ResetReinitialisesAllButLogAndImage : Prop :=
  ∀ (s : State) (rest : List HostCall), s.run = none → s.calls = .reset :: rest →
    ∃ t, step s = .next t ∧ (∀ a, t.mem.read a = s.image.getD a 0) ∧ t.mem.wf ∧
      t = { s with calls := rest, mem := t.mem, pc := 0, rb := 0, status := .running, fault := none, inq := [] }

/-- 48_host_operations.md R204: `save()` changes nothing in the machine, in any status; it gives the host the checkpoint of
memory, pc, rb and whether the status is Halted; and what it gave no later step changes. -/
def Obligations.SaveReturnsACheckpoint : Prop :=
  (∀ (s : State) (rest : List HostCall), s.run = none → s.calls = .save :: rest →
    ∃ c, step s = .next { s with calls := rest, replies := s.replies ++ [.saved c] } ∧
      c.memorySnapshot = s.mem ∧ c.programCounter = s.pc ∧ c.relativeBase = s.rb ∧
      (c.doneFlag = true ↔ s.status = .halted)) ∧
  (∀ s t : State, step s = .next t → s.replies <+: t.replies)

/-- `restore(c)` (48_host_operations.md): for a checkpoint of this machine's size, memory, pc and rb from it, Halted if its
done flag is set and else Running, no fault; image, queue and log unchanged; in any status. Every checkpoint `save` takes of
a state that meets the invariant is one. One of another ADDR_LIMIT is refused and nothing changes (V18), and by the model's
reading (log 11) so is what no `save` returns: a memory not in canonical form or not below ADDR_LIMIT, a pc outside
-2^63 .. 2^63. Rests on D18. -/
def Obligations.RestoreInstallsTheCheckpoint : Prop :=
  (∀ (s : State) (c : Checkpoint) (rest : List HostCall), s.run = none → s.calls = .restore c :: rest →
    c.addrLimit = s.cfg.addrLimit → c.memorySnapshot.wf → c.memorySnapshot.below c.addrLimit →
    -2 ^ 63 ≤ c.programCounter → c.programCounter ≤ 2 ^ 63 →
    step s = .next
      { s with
        calls := rest, mem := c.memorySnapshot, pc := c.programCounter, rb := c.relativeBase,
        status := if c.doneFlag = true then .halted else .running, fault := none }) ∧
  (∀ (s : State) (c : Checkpoint) (rest : List HostCall), s.run = none → s.calls = .restore c :: rest →
    (c.addrLimit ≠ s.cfg.addrLimit ∨ ¬ c.memorySnapshot.wf ∨ ¬ c.memorySnapshot.below s.cfg.addrLimit ∨
      c.programCounter < -2 ^ 63 ∨ 2 ^ 63 < c.programCounter) →
    step s = .next { s with calls := rest, replies := s.replies ++ [.refused] }) ∧
  (∀ s : State, s.Inv → s.checkpoint.wf s.cfg.addrLimit = true)

/-- `inspect` (48_host_operations.md): the host reads a cell through MemRead, a register, the status, the fault record or a
queue, and nothing changes. Rests on D18; that the cell of a number that is no address is refused is log 13. -/
def Obligations.InspectionChangesNothing : Prop :=
  ∀ (s : State) (what : Probe) (rest : List HostCall), s.run = none → s.calls = .inspect what :: rest →
    ∃ reply, step s = .next { s with calls := rest, replies := s.replies ++ [reply] } ∧
      (∀ a, what = .cell a → s.inSpace a → reply = .word (s.mem.read a.toNat)) ∧
      (∀ a, what = .cell a → ¬ s.inSpace a → reply = .refused) ∧
      (what = .pc → reply = .integer s.pc) ∧ (what = .rb → reply = .word s.rb) ∧
      (what = .status → reply = .statusIs s.status) ∧ (what = .fault → reply = .faultIs s.fault) ∧
      (what = .inq → reply = .words s.inq) ∧ (what = .out → reply = .words s.out)

/-- The model's own placement of an instruction (log 6): when the table word decodes to `i` and `pc` is an address, the
very next step executes `i`. -/
def Obligations.PlacedWordIsExecutedNext : Prop :=
  ∀ (s : State) (nbits w : Nat) (i : Instr), s.mem.wf → s.inSpace s.pc → decodeTableWord nbits w = some i →
    step (s.withFetchWord nbits w) = exec i (s.withFetchWord nbits w)

/-- Several machines (60_exceptions.md section 4): a step of one machine is that machine's step and leaves every other
machine as it was. The fresh output of a machine, what is carried, is `out_new` of its runs: of a run that has returned
since the host last dealt with its output, its `out_new`; with every further run, its `out_new` added at the end; nothing of
any other reply; and nothing once the output has been carried or kept, so that no value is carried twice. That the host's
calls on a machine are a list, that it keeps a count of the replies it has dealt with, that carrying an output adds one push
for each value of the other's fresh output, in order, after the calls decided on before, and marks that output as dealt with,
and that all this touches no other machine, is the model's reading (log 15 over log 4). Pushes that are decided on arrive, in order. In a
deadlocked system no machine makes progress: a step changes nothing, and a streaming run, whatever its budget, returns
without output and leaves the machine as it was. -/
def Obligations.MachinesShareNothing : Prop :=
  (∀ (sys sys' : System) (i : Nat), sys.stepAt i = .next sys' →
    (∀ j, j ≠ i → sys'[j]? = sys[j]?) ∧
    (∀ m, sys[i]? = some m → ∃ t, step m.machine = .next t ∧ sys'[i]? = some { m with machine := t })) ∧
  (∀ (m : Member) (pre : List HostReply) (o : RunOutcome) (new : List Word),
    m.machine.replies = pre ++ [.ran o new] → m.taken = pre.length → m.fresh = new) ∧
  (∀ (m : Member) (reply : HostReply), m.taken ≤ m.machine.replies.length →
    (∀ o new, reply = .ran o new →
      Member.fresh { m with machine := { m.machine with replies := m.machine.replies ++ [reply] } } = m.fresh ++ new) ∧
    ((∀ o new, reply ≠ .ran o new) →
      Member.fresh { m with machine := { m.machine with replies := m.machine.replies ++ [reply] } } = m.fresh)) ∧
  (∀ (m : Member), m.taken = m.machine.replies.length → m.fresh = []) ∧
  (∀ (sys : System) (i : Nat) (m : Member), sys[i]? = some m →
    (sys.take i)[i]? = some { m with taken := m.machine.replies.length } ∧ ∀ k, k ≠ i → (sys.take i)[k]? = sys[k]?) ∧
  (∀ (sys : System) (i j k : Nat) (m n : Member), sys[i]? = some m → sys[j]? = some n →
    (∀ m', (sys.carry i j)[i]? = some m' → m'.fresh = []) ∧
    (sys.carry i j).carry i k = sys.carry i j) ∧
  (∀ (sys : System) (i j : Nat) (m n : Member), sys[i]? = some m → sys[j]? = some n →
    (sys.carry i j)[j]? =
      some
        { machine := { n.machine with calls := n.machine.calls ++ m.fresh.map .pushInput },
          taken := if j = i then m.machine.replies.length else n.taken } ∧
    (i ≠ j → (sys.carry i j)[i]? = some { m with taken := m.machine.replies.length }) ∧
    ∀ k, k ≠ i → k ≠ j → (sys.carry i j)[k]? = sys[k]?) ∧
  (∀ (sys : System) (i : Nat) (c : HostCall) (m : Member), sys[i]? = some m →
    (sys.call i c)[i]? = some { m with machine := { m.machine with calls := m.machine.calls ++ [c] } } ∧
    ∀ k, k ≠ i → (sys.call i c)[k]? = sys[k]?) ∧
  (∀ (s : State) (vs : List Word) (rest : List HostCall), s.run = none → s.calls = vs.map .pushInput ++ rest →
    (State.after vs.length s).inq = s.inq ++ vs ∧ (State.after vs.length s).calls = rest ∧
      (State.after vs.length s).run = none) ∧
  (∀ (sys : System) (i : Nat), sys.deadlocked = true → sys.stepAt i = .next sys) ∧
  (∀ (sys : System) (m : Member) (b : Option Int), sys.deadlocked = true → m ∈ sys → m.machine.Inv →
    ∃ o, State.after 2 { m.machine with calls := [.run .streaming b] } =
      { m.machine with replies := m.machine.replies ++ [.ran o []] })
end

