-- ==== Sys2Proof/Laws/Decode.lean ====
section
/-! SUPPORT. What each part of the decoder accepts and refuses, said once: the digits of the word decide. -/

namespace Sys2Proof

/-- A mode digit is 0, 1 or 2. -/
theorem Mode.digit_le (m : Mode) : m.digit ≤ 2 := by cases m <;> decide

/-- The digit that names a mode, and no other, gives it. -/
theorem modeOfDigit_eq_some {d : Nat} {m : Mode} : modeOfDigit d = some m ↔ d = m.digit := by
  constructor
  · intro h
    unfold modeOfDigit at h
    split at h <;> first | (cases h; rfl) | cases h
  · rintro rfl; cases m <;> rfl

/-- The reserved digits 3..9 name no mode. -/
theorem modeOfDigit_eq_none {d : Nat} : modeOfDigit d = none ↔ 3 ≤ d := by
  unfold modeOfDigit
  split <;> simp_all
  omega

/-- When a read parameter has a mode. -/
theorem readMode_eq_ok {n p : Nat} {m : Mode} : readMode n p = .ok m ↔ digit n (p + 1) = m.digit := by
  rw [← modeOfDigit_eq_some]
  unfold readMode
  cases modeOfDigit (digit n (p + 1)) <;> simp

/-- When a read parameter is refused, and how. -/
theorem readMode_eq_error {n p : Nat} {e : DecodeError} :
    readMode n p = .error e ↔ e = .illegalMode p ∧ 3 ≤ digit n (p + 1) := by
  rw [← modeOfDigit_eq_none]
  unfold readMode
  cases modeOfDigit (digit n (p + 1)) <;> simp [eq_comm]

/-- When a write parameter has a mode. -/
theorem writeMode_eq_ok {n p : Nat} {m : Mode} :
    writeMode n p = .ok m ↔ digit n (p + 1) = m.digit ∧ m.writable = true := by
  rw [← modeOfDigit_eq_some]
  unfold writeMode
  rcases modeOfDigit (digit n (p + 1)) with _ | (_ | _ | _) <;> cases m <;> simp [Mode.writable]

/-- When a write parameter is refused, and how. -/
theorem writeMode_eq_error {n p : Nat} {e : DecodeError} :
    writeMode n p = .error e ↔
      (e = .illegalMode p ∧ 3 ≤ digit n (p + 1)) ∨ (e = .illegalWriteMode p ∧ digit n (p + 1) = 1) := by
  have h1 : digit n (p + 1) = 1 ↔ modeOfDigit (digit n (p + 1)) = some .immediate :=
    (modeOfDigit_eq_some (m := .immediate)).symm
  rw [← modeOfDigit_eq_none, h1]
  unfold writeMode
  rcases modeOfDigit (digit n (p + 1)) with _ | (_ | _ | _) <;> simp [eq_comm]

/-! ## The formats -/

/-- What format R answers: the mode of its parameter decides. -/
theorem decodeR_eq (mk : Mode → Instr) (n : Nat) :
    (∃ a, digit n 2 = a.digit ∧ decodeR mk n = .ok (mk a)) ∨
      (3 ≤ digit n 2 ∧ decodeR mk n = .error (.illegalMode 1)) := by
  unfold decodeR
  cases h : readMode n 1 with
  | ok a => exact .inl ⟨a, readMode_eq_ok.1 h, rfl⟩
  | error e => obtain ⟨rfl, hd⟩ := readMode_eq_error.1 h; exact .inr ⟨hd, rfl⟩

/-- What format W answers. -/
theorem decodeW_eq (mk : Mode → Instr) (n : Nat) :
    (∃ a, digit n 2 = a.digit ∧ a.writable = true ∧ decodeW mk n = .ok (mk a)) ∨
      (3 ≤ digit n 2 ∧ decodeW mk n = .error (.illegalMode 1)) ∨
      (digit n 2 = 1 ∧ decodeW mk n = .error (.illegalWriteMode 1)) := by
  unfold decodeW
  cases h : writeMode n 1 with
  | ok a => exact .inl ⟨a, (writeMode_eq_ok.1 h).1, (writeMode_eq_ok.1 h).2, rfl⟩
  | error e =>
    rcases writeMode_eq_error.1 h with ⟨rfl, hd⟩ | ⟨rfl, hd⟩
    · exact .inr (.inl ⟨hd, rfl⟩)
    · exact .inr (.inr ⟨hd, rfl⟩)

/-- What format RR answers: the first bad digit is the one named. -/
theorem decodeRR_eq (mk : Mode → Mode → Instr) (n : Nat) :
    (∃ a b, digit n 2 = a.digit ∧ digit n 3 = b.digit ∧ decodeRR mk n = .ok (mk a b)) ∨
      (3 ≤ digit n 2 ∧ decodeRR mk n = .error (.illegalMode 1)) ∨
      (digit n 2 < 3 ∧ 3 ≤ digit n 3 ∧ decodeRR mk n = .error (.illegalMode 2)) := by
  unfold decodeRR
  cases h1 : readMode n 1 with
  | error e => obtain ⟨rfl, h⟩ := readMode_eq_error.1 h1; exact .inr (.inl ⟨h, rfl⟩)
  | ok a =>
    have ha : digit n 2 = a.digit := readMode_eq_ok.1 h1
    have := a.digit_le
    cases h2 : readMode n 2 with
    | error e =>
      obtain ⟨rfl, h⟩ := readMode_eq_error.1 h2
      exact .inr (.inr ⟨by omega, h, rfl⟩)
    | ok b => exact .inl ⟨a, b, ha, readMode_eq_ok.1 h2, rfl⟩

/-- What format RRW answers: the first bad digit is the one named. -/
theorem decodeRRW_eq (mk : Mode → Mode → Mode → Instr) (n : Nat) :
    (∃ a b c, digit n 2 = a.digit ∧ digit n 3 = b.digit ∧ digit n 4 = c.digit ∧ c.writable = true ∧
        decodeRRW mk n = .ok (mk a b c)) ∨
      (3 ≤ digit n 2 ∧ decodeRRW mk n = .error (.illegalMode 1)) ∨
      (digit n 2 < 3 ∧ 3 ≤ digit n 3 ∧ decodeRRW mk n = .error (.illegalMode 2)) ∨
      (digit n 2 < 3 ∧ digit n 3 < 3 ∧ 3 ≤ digit n 4 ∧ decodeRRW mk n = .error (.illegalMode 3)) ∨
      (digit n 2 < 3 ∧ digit n 3 < 3 ∧ digit n 4 = 1 ∧ decodeRRW mk n = .error (.illegalWriteMode 3)) := by
  unfold decodeRRW
  cases h1 : readMode n 1 with
  | error e => obtain ⟨rfl, h⟩ := readMode_eq_error.1 h1; exact .inr (.inl ⟨h, rfl⟩)
  | ok a =>
    have ha : digit n 2 = a.digit := readMode_eq_ok.1 h1
    have := a.digit_le
    cases h2 : readMode n 2 with
    | error e =>
      obtain ⟨rfl, h⟩ := readMode_eq_error.1 h2
      exact .inr (.inr (.inl ⟨by omega, h, rfl⟩))
    | ok b =>
      have hb : digit n 3 = b.digit := readMode_eq_ok.1 h2
      have := b.digit_le
      cases h3 : writeMode n 3 with
      | ok c => exact .inl ⟨a, b, c, ha, hb, (writeMode_eq_ok.1 h3).1, (writeMode_eq_ok.1 h3).2, rfl⟩
      | error e =>
        rcases writeMode_eq_error.1 h3 with ⟨rfl, h⟩ | ⟨rfl, h⟩
        · exact .inr (.inr (.inr (.inl ⟨by omega, by omega, h, rfl⟩)))
        · exact .inr (.inr (.inr (.inr ⟨by omega, by omega, h, rfl⟩)))

end Sys2Proof
end

