-- ==== Sys2Proof/Laws/Memory.lean ====
section
/-! SUPPORT. The laws of the memory array: reading after writing, and that every memory operation keeps the canonical
form. -/

namespace Sys2Proof.Machine

@[simp] theorem Memory.read_nil (a : Nat) : Memory.read [] a = 0 := rfl

@[simp] theorem Memory.read_cons (k : Nat) (x : Word) (m : Memory) (a : Nat) :
    Memory.read ((k, x) :: m) a = if k = a then x else Memory.read m a := rfl

/-- A cell no entry lists reads as an unwritten one. -/
theorem Memory.read_unlisted {m : Memory} {a : Nat} (h : ∀ c ∈ m, c.1 ≠ a) : m.read a = 0 := by
  induction m with
  | nil => rfl
  | cons c m ih =>
    obtain ⟨k, x⟩ := c
    simp only [List.mem_cons, forall_eq_or_imp] at h
    simp [h.1, ih h.2]

theorem Memory.wf_nil : Memory.wf [] := ⟨List.Pairwise.nil, by simp⟩

/-- The canonical form of a memory with a first entry. -/
theorem Memory.wf_cons {k : Nat} {x : Word} {m : Memory} :
    Memory.wf ((k, x) :: m) ↔ (∀ c ∈ m, k < c.1) ∧ x ≠ 0 ∧ Memory.wf m := by
  simp only [Memory.wf, List.pairwise_cons, List.mem_cons, forall_eq_or_imp, Memory.unlisted]
  tauto

/-- Every entry of a memory after a write is the written one or an entry from before. -/
theorem Memory.mem_write {m : Memory} {a : Nat} {v : Word} {c : Nat × Word} (h : c ∈ m.write a v) :
    c = (a, v) ∨ c ∈ m := by
  induction m with
  | nil =>
    simp only [Memory.write] at h
    split at h <;> simp_all
  | cons e m ih =>
    obtain ⟨k, x⟩ := e
    simp only [Memory.write] at h
    split at h
    · split at h <;> simp_all
    · split at h
      · split at h
        · simp_all
        · simp_all; tauto
      · rcases List.mem_cons.1 h with h | h
        · simp [h]
        · rcases ih h with h | h <;> simp [h]

/-- A write keeps the canonical form. -/
theorem Memory.wf_write {m : Memory} (hm : m.wf) (a : Nat) (v : Word) : (m.write a v).wf := by
  induction m with
  | nil =>
    simp only [Memory.write]
    split
    · exact Memory.wf_nil
    · exact Memory.wf_cons.2 ⟨by simp, by assumption, Memory.wf_nil⟩
  | cons e m ih =>
    obtain ⟨k, x⟩ := e
    obtain ⟨hlt, hx, hm'⟩ := Memory.wf_cons.1 hm
    simp only [Memory.write]
    split
    · rename_i hak
      split
      · exact hm
      · refine Memory.wf_cons.2 ⟨?_, by assumption, hm⟩
        intro c hc
        rcases List.mem_cons.1 hc with rfl | hc
        · exact hak
        · exact hak.trans (hlt c hc)
    · split
      · rename_i hak
        split
        · exact hm'
        · exact Memory.wf_cons.2 ⟨by simpa [hak] using hlt, by assumption, hm'⟩
      · refine Memory.wf_cons.2 ⟨?_, hx, ih hm'⟩
        intro c hc
        rcases Memory.mem_write hc with rfl | hc
        · simp only; omega
        · exact hlt c hc

/-- A write below the ceiling keeps every listed address below it. -/
theorem Memory.below_write {m : Memory} {limit : Nat} (hm : m.below limit) {a : Nat} (ha : a < limit) (v : Word) :
    (m.write a v).below limit := by
  intro c hc
  rcases Memory.mem_write hc with rfl | hc
  · exact ha
  · exact hm c hc

/-- A read after a write to the same cell gives the value written. -/
theorem Memory.read_write_same {m : Memory} (hm : m.wf) (a : Nat) (v : Word) : (m.write a v).read a = v := by
  induction m with
  | nil =>
    simp only [Memory.write]
    split
    · simp_all [Memory.unlisted]
    · simp
  | cons e m ih =>
    obtain ⟨k, x⟩ := e
    obtain ⟨hlt, hx, hm'⟩ := Memory.wf_cons.1 hm
    simp only [Memory.write]
    split
    · rename_i hak
      split
      · rename_i hv
        rw [hv]
        refine Memory.read_unlisted ?_
        intro c hc
        rcases List.mem_cons.1 hc with rfl | hc
        · exact (by simp only; omega)
        · have := hlt c hc; omega
      · simp
    · split
      · rename_i hak
        split
        · rename_i hv
          rw [hv]
          refine Memory.read_unlisted ?_
          intro c hc
          have := hlt c hc; omega
        · simp
      · rename_i h1 h2
        simp [Ne.symm h2, ih hm']

/-- A write leaves every other cell alone, in canonical form or not. -/
theorem Memory.read_write_other (m : Memory) {a b : Nat} (hab : b ≠ a) (v : Word) :
    (m.write a v).read b = m.read b := by
  induction m with
  | nil =>
    simp only [Memory.write]
    split
    · rfl
    · simp [Ne.symm hab]
  | cons e m ih =>
    obtain ⟨k, x⟩ := e
    simp only [Memory.write]
    split
    · split
      · rfl
      · simp [Ne.symm hab]
    · split
      · rename_i hak
        split
        · simp [← hak, Ne.symm hab]
        · simp [← hak, Ne.symm hab]
      · simp [ih]

theorem Memory.read_write {m : Memory} (hm : m.wf) (a b : Nat) (v : Word) :
    (m.write a v).read b = if b = a then v else m.read b := by
  split
  · rename_i h; rw [h, Memory.read_write_same hm]
  · rename_i h; exact Memory.read_write_other m h v

/-- Every entry of an image's memory is a cell of the image. -/
theorem Memory.mem_ofImage {vs : List Word} {a : Nat} {c : Nat × Word} (h : c ∈ Memory.ofImage a vs) :
    a ≤ c.1 ∧ c.1 < a + vs.length := by
  induction vs generalizing a with
  | nil => simp [Memory.ofImage] at h
  | cons v vs ih =>
    simp only [Memory.ofImage] at h
    split at h
    · have := ih h; simp only [List.length_cons]; omega
    · rcases List.mem_cons.1 h with rfl | h
      · simp only [List.length_cons]; omega
      · have := ih h; simp only [List.length_cons]; omega

/-- The memory of an image is in canonical form. -/
theorem Memory.wf_ofImage (a : Nat) (vs : List Word) : (Memory.ofImage a vs).wf := by
  induction vs generalizing a with
  | nil => exact Memory.wf_nil
  | cons v vs ih =>
    simp only [Memory.ofImage]
    split
    · exact ih _
    · refine Memory.wf_cons.2 ⟨?_, by assumption, ih _⟩
      intro c hc
      have := Memory.mem_ofImage hc; omega

theorem Memory.below_ofImage {vs : List Word} {limit : Nat} (h : vs.length ≤ limit) :
    (Memory.ofImage 0 vs).below limit := by
  intro c hc
  have := Memory.mem_ofImage hc; omega

/-- The cells of an image's memory: the image, and 0 elsewhere. -/
theorem Memory.read_ofImage (a : Nat) (vs : List Word) (b : Nat) :
    (Memory.ofImage a vs).read b = if a ≤ b then vs.getD (b - a) 0 else 0 := by
  induction vs generalizing a with
  | nil => simp [Memory.ofImage]
  | cons v vs ih =>
    have key : (Memory.ofImage (a + 1) vs).read b = if a + 1 ≤ b then vs.getD (b - (a + 1)) 0 else 0 := ih (a + 1)
    by_cases hb : b = a
    · subst hb
      simp only [Memory.ofImage]
      split
      · rename_i hv
        rw [key]; simp [hv, Memory.unlisted]
      · simp
    · have hsub : a + 1 ≤ b → b - a = (b - (a + 1)) + 1 := by omega
      have hcases : (Memory.ofImage a (v :: vs)).read b = (Memory.ofImage (a + 1) vs).read b := by
        simp only [Memory.ofImage]
        split
        · rfl
        · simp [Ne.symm hb]
      rw [hcases, key]
      by_cases hle : a + 1 ≤ b
      · rw [if_pos hle, if_pos (by omega), hsub hle, List.getD_cons_succ]
      · rw [if_neg hle, if_neg (by omega)]

end Sys2Proof.Machine
end

