-- ==== Sys2Proof/Laws/State.lean ====
section
/-! SUPPORT. One lemma per field for each update of the state, so that no later proof unfolds a record update. -/

namespace Sys2Proof.Machine

section
variable (s : State) (a : Nat) (v : Word) (next : Int) (o : RunOutcome) (t : Trap) (r : HostReply)

/-! ## memWrite -/

@[simp] theorem State.memWrite_cfg : (s.memWrite a v).cfg = s.cfg := rfl
@[simp] theorem State.memWrite_image : (s.memWrite a v).image = s.image := rfl
@[simp] theorem State.memWrite_mem : (s.memWrite a v).mem = s.mem.write a v := rfl
@[simp] theorem State.memWrite_pc : (s.memWrite a v).pc = s.pc := rfl
@[simp] theorem State.memWrite_rb : (s.memWrite a v).rb = s.rb := rfl
@[simp] theorem State.memWrite_status : (s.memWrite a v).status = s.status := rfl
@[simp] theorem State.memWrite_fault : (s.memWrite a v).fault = s.fault := rfl
@[simp] theorem State.memWrite_inq : (s.memWrite a v).inq = s.inq := rfl
@[simp] theorem State.memWrite_out : (s.memWrite a v).out = s.out := rfl
@[simp] theorem State.memWrite_run : (s.memWrite a v).run = s.run := rfl
@[simp] theorem State.memWrite_calls : (s.memWrite a v).calls = s.calls := rfl
@[simp] theorem State.memWrite_replies : (s.memWrite a v).replies = s.replies := rfl

/-! ## retire -/

@[simp] theorem State.retire_cfg : (s.retire next).cfg = s.cfg := rfl
@[simp] theorem State.retire_image : (s.retire next).image = s.image := rfl
@[simp] theorem State.retire_mem : (s.retire next).mem = s.mem := rfl
@[simp] theorem State.retire_pc : (s.retire next).pc = next := rfl
@[simp] theorem State.retire_rb : (s.retire next).rb = s.rb := rfl
@[simp] theorem State.retire_status : (s.retire next).status = s.status := rfl
@[simp] theorem State.retire_fault : (s.retire next).fault = s.fault := rfl
@[simp] theorem State.retire_inq : (s.retire next).inq = s.inq := rfl
@[simp] theorem State.retire_out : (s.retire next).out = s.out := rfl
@[simp] theorem State.retire_run : (s.retire next).run = s.run.map Run.count := rfl
@[simp] theorem State.retire_calls : (s.retire next).calls = s.calls := rfl
@[simp] theorem State.retire_replies : (s.retire next).replies = s.replies := rfl

/-! ## endRun -/

/-- Returning from a run changes the run and the replies and nothing else. -/
theorem State.endRun_eq : s.endRun o =
    { s with run := none,
             replies := s.replies ++ (s.run.elim [] fun r => [.ran o (s.out.drop r.mark)]) } := by
  obtain ⟨cfg, image, mem, pc, rb, status, fault, inq, out, run, calls, replies⟩ := s
  cases run <;> simp [State.endRun]

@[simp] theorem State.endRun_cfg : (s.endRun o).cfg = s.cfg := by rw [State.endRun_eq]
@[simp] theorem State.endRun_image : (s.endRun o).image = s.image := by rw [State.endRun_eq]
@[simp] theorem State.endRun_mem : (s.endRun o).mem = s.mem := by rw [State.endRun_eq]
@[simp] theorem State.endRun_pc : (s.endRun o).pc = s.pc := by rw [State.endRun_eq]
@[simp] theorem State.endRun_rb : (s.endRun o).rb = s.rb := by rw [State.endRun_eq]
@[simp] theorem State.endRun_status : (s.endRun o).status = s.status := by rw [State.endRun_eq]
@[simp] theorem State.endRun_fault : (s.endRun o).fault = s.fault := by rw [State.endRun_eq]
@[simp] theorem State.endRun_inq : (s.endRun o).inq = s.inq := by rw [State.endRun_eq]
@[simp] theorem State.endRun_out : (s.endRun o).out = s.out := by rw [State.endRun_eq]
@[simp] theorem State.endRun_run : (s.endRun o).run = none := by rw [State.endRun_eq]
@[simp] theorem State.endRun_calls : (s.endRun o).calls = s.calls := by rw [State.endRun_eq]
@[simp] theorem State.endRun_replies : (s.endRun o).replies =
    s.replies ++ (s.run.elim [] fun r => [.ran o (s.out.drop r.mark)]) := by rw [State.endRun_eq]

/-! ## raise -/

@[simp] theorem State.raise_cfg : (s.raise t).cfg = s.cfg := by simp [State.raise]
@[simp] theorem State.raise_image : (s.raise t).image = s.image := by simp [State.raise]
@[simp] theorem State.raise_mem : (s.raise t).mem = s.mem := by simp [State.raise]
@[simp] theorem State.raise_pc : (s.raise t).pc = s.pc := by simp [State.raise]
@[simp] theorem State.raise_rb : (s.raise t).rb = s.rb := by simp [State.raise]
@[simp] theorem State.raise_status : (s.raise t).status = .faulted := by simp [State.raise]
@[simp] theorem State.raise_fault : (s.raise t).fault = some (s.faultInfo t) := by simp [State.raise]
@[simp] theorem State.raise_inq : (s.raise t).inq = s.inq := by simp [State.raise]
@[simp] theorem State.raise_out : (s.raise t).out = s.out := by simp [State.raise]
@[simp] theorem State.raise_run : (s.raise t).run = none := by simp [State.raise]
@[simp] theorem State.raise_calls : (s.raise t).calls = s.calls := by simp [State.raise]
@[simp] theorem State.raise_replies : (s.raise t).replies =
    s.replies ++ (s.run.elim [] fun r => [.ran (.fault (some (s.faultInfo t))) (s.out.drop r.mark)]) := by
  simp [State.raise]

@[simp] theorem State.faultInfo_kind : (s.faultInfo t).kind = t.kind := rfl
@[simp] theorem State.faultInfo_code : (s.faultInfo t).code = t.kind.code := rfl
@[simp] theorem State.faultInfo_atPc : (s.faultInfo t).atPc = s.pc := rfl
@[simp] theorem State.faultInfo_word : (s.faultInfo t).word = s.fetchedWord := rfl
@[simp] theorem State.faultInfo_param : (s.faultInfo t).param = t.param := rfl

/-! ## reply -/

@[simp] theorem State.reply_cfg : (s.reply r).cfg = s.cfg := rfl
@[simp] theorem State.reply_image : (s.reply r).image = s.image := rfl
@[simp] theorem State.reply_mem : (s.reply r).mem = s.mem := rfl
@[simp] theorem State.reply_pc : (s.reply r).pc = s.pc := rfl
@[simp] theorem State.reply_rb : (s.reply r).rb = s.rb := rfl
@[simp] theorem State.reply_status : (s.reply r).status = s.status := rfl
@[simp] theorem State.reply_fault : (s.reply r).fault = s.fault := rfl
@[simp] theorem State.reply_inq : (s.reply r).inq = s.inq := rfl
@[simp] theorem State.reply_out : (s.reply r).out = s.out := rfl
@[simp] theorem State.reply_run : (s.reply r).run = s.run := rfl
@[simp] theorem State.reply_calls : (s.reply r).calls = s.calls := rfl
@[simp] theorem State.reply_replies : (s.reply r).replies = s.replies ++ [r] := rfl

end

section
variable (s : State) (v : Word) (c : Checkpoint) (p : Policy) (b : Option Int)

/-! ## pushInput -/

@[simp] theorem State.pushInput_cfg : (s.pushInput v).cfg = s.cfg := rfl
@[simp] theorem State.pushInput_image : (s.pushInput v).image = s.image := rfl
@[simp] theorem State.pushInput_mem : (s.pushInput v).mem = s.mem := rfl
@[simp] theorem State.pushInput_pc : (s.pushInput v).pc = s.pc := rfl
@[simp] theorem State.pushInput_rb : (s.pushInput v).rb = s.rb := rfl
@[simp] theorem State.pushInput_status :
    (s.pushInput v).status = if s.status = .blocked then .running else s.status := rfl
@[simp] theorem State.pushInput_fault : (s.pushInput v).fault = s.fault := rfl
@[simp] theorem State.pushInput_inq : (s.pushInput v).inq = s.inq ++ [v] := rfl
@[simp] theorem State.pushInput_out : (s.pushInput v).out = s.out := rfl
@[simp] theorem State.pushInput_run : (s.pushInput v).run = s.run := rfl
@[simp] theorem State.pushInput_calls : (s.pushInput v).calls = s.calls := rfl
@[simp] theorem State.pushInput_replies : (s.pushInput v).replies = s.replies := rfl

/-! ## drainOutput -/

@[simp] theorem State.drainOutput_cfg : s.drainOutput.cfg = s.cfg := rfl
@[simp] theorem State.drainOutput_image : s.drainOutput.image = s.image := rfl
@[simp] theorem State.drainOutput_mem : s.drainOutput.mem = s.mem := rfl
@[simp] theorem State.drainOutput_pc : s.drainOutput.pc = s.pc := rfl
@[simp] theorem State.drainOutput_rb : s.drainOutput.rb = s.rb := rfl
@[simp] theorem State.drainOutput_status : s.drainOutput.status = s.status := rfl
@[simp] theorem State.drainOutput_fault : s.drainOutput.fault = s.fault := rfl
@[simp] theorem State.drainOutput_inq : s.drainOutput.inq = s.inq := rfl
@[simp] theorem State.drainOutput_out : s.drainOutput.out = [] := rfl
@[simp] theorem State.drainOutput_run : s.drainOutput.run = s.run := rfl
@[simp] theorem State.drainOutput_calls : s.drainOutput.calls = s.calls := rfl
@[simp] theorem State.drainOutput_replies : s.drainOutput.replies = s.replies ++ [.drained s.out] := rfl

/-! ## hostReset -/

@[simp] theorem State.hostReset_cfg : s.hostReset.cfg = s.cfg := rfl
@[simp] theorem State.hostReset_image : s.hostReset.image = s.image := rfl
@[simp] theorem State.hostReset_mem : s.hostReset.mem = Memory.ofImage 0 s.image := rfl
@[simp] theorem State.hostReset_pc : s.hostReset.pc = 0 := rfl
@[simp] theorem State.hostReset_rb : s.hostReset.rb = 0 := rfl
@[simp] theorem State.hostReset_status : s.hostReset.status = .running := rfl
@[simp] theorem State.hostReset_fault : s.hostReset.fault = none := rfl
@[simp] theorem State.hostReset_inq : s.hostReset.inq = [] := rfl
@[simp] theorem State.hostReset_out : s.hostReset.out = s.out := rfl
@[simp] theorem State.hostReset_run : s.hostReset.run = s.run := rfl
@[simp] theorem State.hostReset_calls : s.hostReset.calls = s.calls := rfl
@[simp] theorem State.hostReset_replies : s.hostReset.replies = s.replies := rfl

/-! ## install -/

@[simp] theorem State.install_cfg : (s.install c).cfg = s.cfg := rfl
@[simp] theorem State.install_image : (s.install c).image = s.image := rfl
@[simp] theorem State.install_mem : (s.install c).mem = c.memorySnapshot := rfl
@[simp] theorem State.install_pc : (s.install c).pc = c.programCounter := rfl
@[simp] theorem State.install_rb : (s.install c).rb = c.relativeBase := rfl
@[simp] theorem State.install_status :
    (s.install c).status = if c.doneFlag then .halted else .running := rfl
@[simp] theorem State.install_fault : (s.install c).fault = none := rfl
@[simp] theorem State.install_inq : (s.install c).inq = s.inq := rfl
@[simp] theorem State.install_out : (s.install c).out = s.out := rfl
@[simp] theorem State.install_run : (s.install c).run = s.run := rfl
@[simp] theorem State.install_calls : (s.install c).calls = s.calls := rfl
@[simp] theorem State.install_replies : (s.install c).replies = s.replies := rfl

/-! ## beginRun -/

@[simp] theorem State.beginRun_cfg : (s.beginRun p b).cfg = s.cfg := rfl
@[simp] theorem State.beginRun_image : (s.beginRun p b).image = s.image := rfl
@[simp] theorem State.beginRun_mem : (s.beginRun p b).mem = s.mem := rfl
@[simp] theorem State.beginRun_pc : (s.beginRun p b).pc = s.pc := rfl
@[simp] theorem State.beginRun_rb : (s.beginRun p b).rb = s.rb := rfl
@[simp] theorem State.beginRun_status : (s.beginRun p b).status = s.status := rfl
@[simp] theorem State.beginRun_fault : (s.beginRun p b).fault = s.fault := rfl
@[simp] theorem State.beginRun_inq : (s.beginRun p b).inq = s.inq := rfl
@[simp] theorem State.beginRun_out : (s.beginRun p b).out = s.out := rfl
@[simp] theorem State.beginRun_run : (s.beginRun p b).run =
    some { policy := p, budget := b, executed := 0, mark := s.out.length } := rfl
@[simp] theorem State.beginRun_calls : (s.beginRun p b).calls = s.calls := rfl
@[simp] theorem State.beginRun_replies : (s.beginRun p b).replies = s.replies := rfl

/-! ## The run and its count -/

variable (r : Run)

@[simp] theorem Run.count_policy : r.count.policy = r.policy := rfl
@[simp] theorem Run.count_budget : r.count.budget = r.budget := rfl
@[simp] theorem Run.count_executed : r.count.executed = r.executed + 1 := rfl
@[simp] theorem Run.count_mark : r.count.mark = r.mark := rfl

end

end Sys2Proof.Machine
end

