-- ==== Sys2Proof/Laws/Operands.lean ====
section
/-! SUPPORT. One lemma for each shared operation that reaches memory: everything it can answer, in the terms of
Safety.lean. Cite these instead of unfolding Ops.lean and Operands.lean. -/

namespace Sys2Proof.Machine

/-- The address check answers the address, or the trap of 20_memory.md R54. -/
theorem State.checkAddr_eq (s : State) (a : Int) (param : Option Nat) :
    s.checkAddr a param = if s.inSpace a then .ok a.toNat else .error (addressTrap a param) := by
  unfold State.checkAddr addressTrap State.inSpace
  by_cases h0 : a < 0
  · rw [if_pos h0, if_neg (by omega), if_pos h0]
  · by_cases h1 : (s.cfg.addrLimit : Int) ≤ a
    · rw [if_neg h0, if_pos h1, if_neg (by omega), if_neg h0]
    · rw [if_neg h0, if_neg h1, if_pos (by omega)]

theorem State.memRead_eq (s : State) (a : Int) (param : Option Nat) :
    s.memRead a param = if s.inSpace a then .ok (s.cell a) else .error (addressTrap a param) := by
  unfold State.memRead State.cell
  rw [State.checkAddr_eq]
  by_cases h : s.inSpace a
  · rw [if_pos h, if_pos h]
  · rw [if_neg h, if_neg h]

theorem State.fetch_eq (s : State) :
    s.fetch = if s.inSpace s.pc then .ok (s.cell s.pc) else .error (addressTrap s.pc none) :=
  State.memRead_eq s s.pc none

theorem State.fetchedWord_eq (s : State) :
    s.fetchedWord = if s.inSpace s.pc then some (s.cell s.pc) else none := by
  unfold State.fetchedWord
  rw [State.fetch_eq]
  by_cases h : s.inSpace s.pc
  · rw [if_pos h, if_pos h]
  · rw [if_neg h, if_neg h]

theorem State.fetchParam_eq (s : State) (p : Nat) :
    s.fetchParam p =
      if s.inSpace (s.pc + p) then .ok (s.param p) else .error (addressTrap (s.pc + p) (some p)) :=
  State.memRead_eq s (s.pc + p) (some p)

/-- Resolving a read parameter: its value when it is readable, and else its trap. -/
theorem State.val_eq (s : State) (p : Nat) (m : Mode) :
    s.val p m = if s.readable p m then .ok (s.value p m) else .error (s.operandTrap p m) := by
  unfold State.val
  rw [State.fetchParam_eq]
  by_cases hp : s.inSpace (s.pc + p)
  · rw [if_pos hp]
    cases m with
    | immediate => simp only [State.readOperand]; rw [if_pos ⟨hp, .inl rfl⟩]; rfl
    | position =>
      simp only [State.readOperand, State.effectiveAddress, State.checkAddr_eq]
      by_cases ha : s.inSpace (s.param p).toInt
      · rw [if_pos ha, if_pos ⟨hp, .inr ha⟩]; rfl
      · rw [if_neg ha, if_neg (fun h => h.2.elim (fun h => nomatch h) ha)]
        simp [State.operandTrap, hp, State.operandAddr]
    | relative =>
      simp only [State.readOperand, State.effectiveAddress, State.checkAddr_eq]
      by_cases ha : s.inSpace (s.rb.toInt + (s.param p).toInt)
      · rw [if_pos ha, if_pos ⟨hp, .inr ha⟩]; rfl
      · rw [if_neg ha, if_neg (fun h => h.2.elim (fun h => nomatch h) ha)]
        simp [State.operandTrap, hp, State.operandAddr]
  · rw [if_neg hp, if_neg (fun h => hp h.1)]
    simp [State.operandTrap, hp]

/-- Resolving a write parameter: the cell it names when it is writable, and else its trap. -/
theorem State.dst_eq (s : State) (p : Nat) (m : Mode) :
    s.dst p m = if s.writable p m then .ok (s.target p m) else .error (s.operandTrap p m) := by
  unfold State.dst
  rw [State.fetchParam_eq]
  by_cases hp : s.inSpace (s.pc + p)
  · rw [if_pos hp]
    cases m with
    | immediate =>
      simp only [State.effectiveAddress]
      rw [if_neg (fun h => h.2.1 rfl)]
      simp [State.operandTrap, hp]
    | position =>
      simp only [State.effectiveAddress, State.checkAddr_eq]
      by_cases ha : s.inSpace (s.param p).toInt
      · rw [if_pos ha, if_pos ⟨hp, by simp, ha⟩]; rfl
      · rw [if_neg ha, if_neg (fun h => ha h.2.2)]
        simp [State.operandTrap, hp, State.operandAddr]
    | relative =>
      simp only [State.effectiveAddress, State.checkAddr_eq]
      by_cases ha : s.inSpace (s.rb.toInt + (s.param p).toInt)
      · rw [if_pos ha, if_pos ⟨hp, by simp, ha⟩]; rfl
      · rw [if_neg ha, if_neg (fun h => ha h.2.2)]
        simp [State.operandTrap, hp, State.operandAddr]
  · rw [if_neg hp, if_neg (fun h => hp h.1)]
    simp [State.operandTrap, hp]

/-- The parameter index of an address trap is the one it was given. -/
@[simp] theorem addressTrap_param (a : Int) (param : Option Nat) : (addressTrap a param).param = param := by
  unfold addressTrap; split <;> rfl

/-- The trap of an operand names its parameter. -/
@[simp] theorem State.operandTrap_param (s : State) (p : Nat) (m : Mode) : (s.operandTrap p m).param = some p := by
  unfold State.operandTrap
  split
  · split <;> simp
  · simp

/-- Resolution of two read parameters: the values, or the trap of the first that does not resolve. -/
theorem State.resolveRR_eq (s : State) (a b : Mode) :
    s.resolveRR a b =
      if s.readable 1 a then
        if s.readable 2 b then .ok (s.value 1 a, s.value 2 b) else .error (s.operandTrap 2 b)
      else .error (s.operandTrap 1 a) := by
  unfold State.resolveRR
  rw [State.val_eq, State.val_eq]
  split_ifs <;> rfl

/-- Resolution of two read parameters and a write parameter: the operands, or the trap of the first that does not
resolve. -/
theorem State.resolveRRW_eq (s : State) (a b c : Mode) :
    s.resolveRRW a b c =
      if s.readable 1 a then
        if s.readable 2 b then
          if s.writable 3 c then .ok (s.value 1 a, s.value 2 b, s.target 3 c) else .error (s.operandTrap 3 c)
        else .error (s.operandTrap 2 b)
      else .error (s.operandTrap 1 a) := by
  unfold State.resolveRRW
  rw [State.resolveRR_eq, State.dst_eq]
  split_ifs <;> rfl

/-- Everything a format RRW instruction does. -/
theorem State.storeBinary_eq (s : State) (f : Word → Word → Word) (a b c : Mode) :
    s.storeBinary f a b c =
      if s.readable 1 a then
        if s.readable 2 b then
          if s.writable 3 c then
            (s.memWrite (s.target 3 c) (f (s.value 1 a) (s.value 2 b))).retire (s.pc + 4)
          else s.raise (s.operandTrap 3 c)
        else s.raise (s.operandTrap 2 b)
      else s.raise (s.operandTrap 1 a) := by
  unfold State.storeBinary
  rw [State.resolveRRW_eq]
  split_ifs <;> rfl

/-- Everything a format RR instruction does. -/
theorem State.jumpWhen_eq (s : State) (cond : Word → Bool) (a b : Mode) :
    s.jumpWhen cond a b =
      if s.readable 1 a then
        if s.readable 2 b then
          s.retire (if cond (s.value 1 a) then (s.value 2 b).toInt else s.pc + 3)
        else s.raise (s.operandTrap 2 b)
      else s.raise (s.operandTrap 1 a) := by
  unfold State.jumpWhen
  rw [State.resolveRR_eq]
  split_ifs <;> simp_all

/-- The cell a writable parameter names is below the ceiling. -/
theorem State.target_lt {s : State} {p : Nat} {m : Mode} (h : s.writable p m) : s.target p m < s.cfg.addrLimit := by
  have := h.2.2
  unfold State.target
  omega

end Sys2Proof.Machine
end

