-- ==== Sys2Proof/Laws/PerInstr.lean ====
section
/-! SUPPORT. One law of every instruction as syntax, constructor by constructor. -/

namespace Sys2Proof.Laws.EncodeShape

/-- The instruction's word is a non-negative number of at most five digits whose two low digits are the opcode, and the
instruction is as many cells long as the format of that opcode says (30_encoding.md R81, R85, R86). -/
def Statement (i : Instr) : Prop :=
  (encode i).toNat % 100 = i.opcode ∧ (encode i).toNat < 100000 ∧ 0 ≤ (encode i).toInt ∧
    i.length = 1 + Sys2Proof.Machine.paramCount i.opcode

theorem add (a b dst : Mode) : Statement (.add a b dst) := by
  cases a <;> cases b <;> cases dst <;> exact ⟨by decide, by decide, by decide, rfl⟩

theorem multiply (a b dst : Mode) : Statement (.multiply a b dst) := by
  cases a <;> cases b <;> cases dst <;> exact ⟨by decide, by decide, by decide, rfl⟩

theorem input (dst : Mode) : Statement (.input dst) := by
  cases dst <;> exact ⟨by decide, by decide, by decide, rfl⟩

theorem output (a : Mode) : Statement (.output a) := by
  cases a <;> exact ⟨by decide, by decide, by decide, rfl⟩

theorem jumpIfTrue (a target : Mode) : Statement (.jumpIfTrue a target) := by
  cases a <;> cases target <;> exact ⟨by decide, by decide, by decide, rfl⟩

theorem jumpIfFalse (a target : Mode) : Statement (.jumpIfFalse a target) := by
  cases a <;> cases target <;> exact ⟨by decide, by decide, by decide, rfl⟩

theorem lessThan (a b dst : Mode) : Statement (.lessThan a b dst) := by
  cases a <;> cases b <;> cases dst <;> exact ⟨by decide, by decide, by decide, rfl⟩

theorem equals (a b dst : Mode) : Statement (.equals a b dst) := by
  cases a <;> cases b <;> cases dst <;> exact ⟨by decide, by decide, by decide, rfl⟩

theorem adjustBase (a : Mode) : Statement (.adjustBase a) := by
  cases a <;> exact ⟨by decide, by decide, by decide, rfl⟩

theorem halt : Statement .halt := ⟨by decide, by decide, by decide, rfl⟩

end Sys2Proof.Laws.EncodeShape
end

