-- ==== Sys2Proof/Laws/Step.lean ====
section
/-! SUPPORT. What one step can do, said once: one equation per instruction, one inversion lemma for `exec`, one for
`step`. Every frame and every invariant is a case analysis over these. -/

namespace Sys2Proof.Machine

/-! ## Each instruction, everything it does -/

theorem exec_add (a b c : Mode) (s : State) : exec (.add a b c) s = .next (s.storeBinary wrapSum a b c) := rfl

theorem exec_multiply (a b c : Mode) (s : State) :
    exec (.multiply a b c) s = .next (s.storeBinary wrapProduct a b c) := rfl

theorem exec_lessThan (a b c : Mode) (s : State) :
    exec (.lessThan a b c) s = .next (s.storeBinary lessThanWord a b c) := rfl

theorem exec_equals (a b c : Mode) (s : State) : exec (.equals a b c) s = .next (s.storeBinary equalsWord a b c) := rfl

theorem exec_jumpIfTrue (a b : Mode) (s : State) : exec (.jumpIfTrue a b) s = .next (s.jumpWhen isNonZero a b) := rfl

theorem exec_jumpIfFalse (a b : Mode) (s : State) :
    exec (.jumpIfFalse a b) s = .next (s.jumpWhen (fun v => !isNonZero v) a b) := rfl

theorem exec_halt (s : State) : exec .halt s = .next ({ s with status := .halted }.endRun .halted) := rfl

theorem exec_output (a : Mode) (s : State) :
    exec (.output a) s =
      if s.readable 1 a then .next ({ s with out := s.out ++ [s.value 1 a] }.retire (s.pc + 2))
      else .next (s.raise (s.operandTrap 1 a)) := by
  change execOutput a s = _
  unfold execOutput
  rw [State.val_eq]
  by_cases h : s.readable 1 a
  · rw [if_pos h, if_pos h]
  · rw [if_neg h, if_neg h]

theorem exec_adjustBase (a : Mode) (s : State) :
    exec (.adjustBase a) s =
      if s.readable 1 a then .next ({ s with rb := wrapSum s.rb (s.value 1 a) }.retire (s.pc + 2))
      else .next (s.raise (s.operandTrap 1 a)) := by
  change execAdjustBase a s = _
  unfold execAdjustBase
  rw [State.val_eq]
  by_cases h : s.readable 1 a
  · rw [if_pos h, if_pos h]
  · rw [if_neg h, if_neg h]

theorem exec_input (c : Mode) (s : State) :
    exec (.input c) s =
      if s.writable 1 c then
        match s.inq with
        | [] => s.inputEmpty
        | x :: rest => .next (({ s with inq := rest }.memWrite (s.target 1 c) x).retire (s.pc + 2))
      else .next (s.raise (s.operandTrap 1 c)) := by
  change execInput c s = _
  unfold execInput
  rw [State.dst_eq]
  by_cases h : s.writable 1 c
  · rewrite [if_pos h, if_pos h]
    cases s.inq <;> rfl
  · rw [if_neg h, if_neg h]

/-! ## Inversion of `exec` -/

/-- What an instruction can do that answers a next state: take a fault that names no parameter or one of 1..3, or one of
the effects of 41 to 46. -/
inductive Effect (s : State) : Instr → State → Prop
  /-- A fault is taken (60_exceptions.md R222). -/
  | raised (i : Instr) (t : Trap) (h : t.param = none ∨ t.param = some 1 ∨ t.param = some 2 ∨ t.param = some 3) :
      Effect s i (s.raise t)
  /-- A format RRW instruction stores and retires. -/
  | stored (i : Instr) (a b c : Mode) (v : Word) (ha : s.readable 1 a) (hb : s.readable 2 b) (hc : s.writable 3 c)
      (hi : i = .add a b c ∨ i = .multiply a b c ∨ i = .lessThan a b c ∨ i = .equals a b c) :
      Effect s i ((s.memWrite (s.target 3 c) v).retire (s.pc + 4))
  /-- `input` takes the head of the queue. -/
  | consumed (c : Mode) (x : Word) (rest : List Word) (hc : s.writable 1 c) (hq : s.inq = x :: rest) :
      Effect s (.input c) (({ s with inq := rest }.memWrite (s.target 1 c) x).retire (s.pc + 2))
  /-- `input` blocks. -/
  | blocked (c : Mode) (r : Run) (hc : s.writable 1 c) (hq : s.inq = []) (hr : s.run = some r)
      (hp : r.policy = .streaming) :
      Effect s (.input c) ({ s with status := .blocked }.endRun .blockedOnInput)
  /-- `output` appends. -/
  | appended (a : Mode) (ha : s.readable 1 a) :
      Effect s (.output a) ({ s with out := s.out ++ [s.value 1 a] }.retire (s.pc + 2))
  /-- A jump is taken. -/
  | jumped (i : Instr) (a b : Mode) (ha : s.readable 1 a) (hb : s.readable 2 b)
      (hi : i = .jumpIfTrue a b ∨ i = .jumpIfFalse a b) :
      Effect s i (s.retire (s.value 2 b).toInt)
  /-- A jump is not taken. -/
  | fellThrough (i : Instr) (a b : Mode) (ha : s.readable 1 a) (hb : s.readable 2 b)
      (hi : i = .jumpIfTrue a b ∨ i = .jumpIfFalse a b) :
      Effect s i (s.retire (s.pc + 3))
  /-- `adjust-base` moves the base. -/
  | moved (a : Mode) (ha : s.readable 1 a) :
      Effect s (.adjustBase a) ({ s with rb := wrapSum s.rb (s.value 1 a) }.retire (s.pc + 2))
  /-- `halt` halts. -/
  | halted : Effect s .halt ({ s with status := .halted }.endRun .halted)

theorem State.storeBinary_effect (s : State) (f : Word → Word → Word) (i : Instr) (a b c : Mode)
    (hi : i = .add a b c ∨ i = .multiply a b c ∨ i = .lessThan a b c ∨ i = .equals a b c) :
    Effect s i (s.storeBinary f a b c) := by
  rw [State.storeBinary_eq]
  split_ifs with ha hb hc
  · exact .stored i a b c _ ha hb hc hi
  · exact .raised i _ (by simp)
  · exact .raised i _ (by simp)
  · exact .raised i _ (by simp)

theorem State.jumpWhen_effect (s : State) (cond : Word → Bool) (i : Instr) (a b : Mode)
    (hi : i = .jumpIfTrue a b ∨ i = .jumpIfFalse a b) : Effect s i (s.jumpWhen cond a b) := by
  rw [State.jumpWhen_eq]
  split_ifs with ha hb hc
  · exact .jumped i a b ha hb hi
  · exact .fellThrough i a b ha hb hi
  · exact .raised i _ (by simp)
  · exact .raised i _ (by simp)

theorem State.inputEmpty_next {s t : State} {c : Mode} (hc : s.writable 1 c) (hq : s.inq = [])
    (h : s.inputEmpty = .next t) : Effect s (.input c) t := by
  unfold State.inputEmpty at h
  split at h
  · cases h
  · rename_i r hr
    split at h
    · rename_i hp
      cases h
      exact .blocked c r hc hq hr hp
    · cases h
      exact .raised _ _ (.inl rfl)

/-- The inversion lemma of `exec`. -/
theorem exec_cases {i : Instr} {s t : State} (h : exec i s = .next t) : Effect s i t := by
  cases i with
  | add a b c => cases h; exact s.storeBinary_effect _ _ a b c (by simp)
  | multiply a b c => cases h; exact s.storeBinary_effect _ _ a b c (by simp)
  | lessThan a b c => cases h; exact s.storeBinary_effect _ _ a b c (by simp)
  | equals a b c => cases h; exact s.storeBinary_effect _ _ a b c (by simp)
  | jumpIfTrue a b => cases h; exact s.jumpWhen_effect _ _ a b (by simp)
  | jumpIfFalse a b => cases h; exact s.jumpWhen_effect _ _ a b (by simp)
  | halt => cases h; exact .halted
  | input c =>
    rw [exec_input] at h
    split at h
    · rename_i hc
      split at h
      · exact State.inputEmpty_next hc (by assumption) h
      · cases h; exact .consumed c _ _ hc (by assumption)
    · cases h; exact .raised _ _ (by simp)
  | output a =>
    rw [exec_output] at h
    split at h
    · cases h; exact .appended a (by assumption)
    · cases h; exact .raised _ _ (by simp)
  | adjustBase a =>
    rw [exec_adjustBase] at h
    split at h
    · cases h; exact .moved a (by assumption)
    · cases h; exact .raised _ _ (by simp)

/-! ## Inversion of `step` -/

/-- What a step can do that answers a next state. -/
inductive StepEffect (s : State) : State → Prop
  /-- No run is in progress and the host makes no call. -/
  | idle (hr : s.run = none) (hc : s.calls = []) : StepEffect s s
  /-- The host makes its next call. -/
  | called (c : HostCall) (rest : List HostCall) (hr : s.run = none) (hc : s.calls = c :: rest) :
      StepEffect s ({ s with calls := rest }.hostCall c)
  /-- The run returns Fault on a Faulted machine. -/
  | wasFaulted (r : Run) (hr : s.run = some r) (hs : s.status = .faulted) : StepEffect s (s.endRun (.fault s.fault))
  /-- The run returns Halted on a Halted machine. -/
  | wasHalted (r : Run) (hr : s.run = some r) (hs : s.status = .halted) : StepEffect s (s.endRun .halted)
  /-- The run's budget is spent. -/
  | exhausted (r : Run) (hr : s.run = some r) (hs : s.status = .running ∨ s.status = .blocked)
      (hb : r.spent = true) : StepEffect s (s.endRun .budgetExhausted)
  /-- The fetch or the decoding of the instruction word faults. -/
  | badWord (r : Run) (t : Trap) (hr : s.coreSteps r) (hn : s.nextInstr = none)
      (ht : t.param = none ∨ t.param = some 1 ∨ t.param = some 2 ∨ t.param = some 3) : StepEffect s (s.raise t)
  /-- An instruction is executed. -/
  | executed (r : Run) (i : Instr) (t : State) (hr : s.coreSteps r) (hi : s.nextInstr = some i)
      (he : exec i s = .next t) : StepEffect s t

/-- The parameter a decode error names is one of 1..3. -/
theorem decode_error_param {w : Word} {e : DecodeError} (h : decode w = .error e) :
    (trapOfDecodeError e).param = none ∨ (trapOfDecodeError e).param = some 1 ∨
      (trapOfDecodeError e).param = some 2 ∨ (trapOfDecodeError e).param = some 3 := by
  have hread : ∀ n p e, readMode n p = .error e → (trapOfDecodeError e).param = some p := by
    intro n p e h
    unfold readMode at h
    split at h
    · cases h
    · cases h; rfl
  have hwrite : ∀ n p e, writeMode n p = .error e → (trapOfDecodeError e).param = some p := by
    intro n p e h
    unfold writeMode at h
    split at h
    · cases h; rfl
    · cases h
    · cases h; rfl
  have hR : ∀ mk n e, decodeR mk n = .error e → (trapOfDecodeError e).param = some 1 := by
    intro mk n e h
    unfold decodeR at h
    split at h
    · cases h; exact hread _ _ _ (by assumption)
    · cases h
  have hW : ∀ mk n e, decodeW mk n = .error e → (trapOfDecodeError e).param = some 1 := by
    intro mk n e h
    unfold decodeW at h
    split at h
    · cases h; exact hwrite _ _ _ (by assumption)
    · cases h
  have hRR : ∀ mk n e, decodeRR mk n = .error e →
      (trapOfDecodeError e).param = some 1 ∨ (trapOfDecodeError e).param = some 2 := by
    intro mk n e h
    unfold decodeRR at h
    split at h
    · cases h; exact .inl (hread _ _ _ (by assumption))
    · split at h
      · cases h; exact .inr (hread _ _ _ (by assumption))
      · cases h
  have hRRW : ∀ mk n e, decodeRRW mk n = .error e →
      (trapOfDecodeError e).param = some 1 ∨ (trapOfDecodeError e).param = some 2 ∨
        (trapOfDecodeError e).param = some 3 := by
    intro mk n e h
    unfold decodeRRW at h
    split at h
    · cases h; exact .inl (hread _ _ _ (by assumption))
    · split at h
      · cases h; exact .inr (.inl (hread _ _ _ (by assumption)))
      · split at h
        · cases h; exact .inr (.inr (hwrite _ _ _ (by assumption)))
        · cases h
  unfold decode at h
  split at h
  · cases h; exact .inl rfl
  · unfold decodeNat at h
    split at h
    · exact .inr (hRRW _ _ _ h)
    · exact .inr (hRRW _ _ _ h)
    · exact .inr (.inl (hW _ _ _ h))
    · exact .inr (.inl (hR _ _ _ h))
    · rcases hRR _ _ _ h with h | h
      · exact .inr (.inl h)
      · exact .inr (.inr (.inl h))
    · rcases hRR _ _ _ h with h | h
      · exact .inr (.inl h)
      · exact .inr (.inr (.inl h))
    · exact .inr (hRRW _ _ _ h)
    · exact .inr (hRRW _ _ _ h)
    · exact .inr (.inl (hR _ _ _ h))
    · cases h
    · cases h; exact .inl rfl

/-- Fetching and decoding in a state in which the core steps. -/
theorem State.fetchDecode_cases {s t : State} {r : Run} (hr : s.coreSteps r)
    (h : (match s.fetchDecode with | .done u => .next u | .execute i => exec i s) = Host.Outcome.next t) :
    StepEffect s t := by
  unfold State.fetchDecode at h
  rw [State.fetch_eq] at h
  by_cases hp : s.inSpace s.pc
  · rw [if_pos hp] at h
    simp only at h
    have hf : s.fetch = .ok (s.cell s.pc) := by rw [State.fetch_eq, if_pos hp]
    cases hd : decode (s.cell s.pc) with
    | error e =>
      rw [hd] at h
      simp only [Host.Outcome.next.injEq] at h
      subst h
      exact .badWord r _ hr (by unfold State.nextInstr; rw [hf]; simp only; rw [hd]) (decode_error_param hd)
    | ok i =>
      rw [hd] at h
      exact .executed r i t hr (by unfold State.nextInstr; rw [hf]; simp only; rw [hd]) h
  · rw [if_neg hp] at h
    simp only [Host.Outcome.next.injEq] at h
    subst h
    refine .badWord r _ hr ?_ (.inl (addressTrap_param _ _))
    unfold State.nextInstr
    rw [State.fetch_eq, if_neg hp]

/-- The inversion lemma of `step`. -/
theorem step_cases {s t : State} (h : step s = .next t) : StepEffect s t := by
  unfold step State.turn at h
  cases hr : s.run with
  | none =>
    rw [hr] at h
    cases hc : s.calls with
    | nil =>
      rw [hc] at h
      simp only [Host.Outcome.next.injEq] at h
      subst h
      exact .idle hr hc
    | cons c rest =>
      have hs : t = { s with calls := rest }.hostCall c := by
        simp only [hc, Host.Outcome.next.injEq] at h
        rw [← h, hr]
      exact hs ▸ .called c rest hr hc
  | some r =>
    rw [hr] at h
    unfold State.loopTurn at h
    cases hs : s.status with
    | faulted =>
      rw [hs] at h
      simp only [Host.Outcome.next.injEq] at h
      subst h
      exact .wasFaulted r hr hs
    | halted =>
      rw [hs] at h
      simp only [Host.Outcome.next.injEq] at h
      subst h
      exact .wasHalted r hr hs
    | running =>
      rw [hs] at h
      cases hb : r.spent with
      | true =>
        simp only [hb, if_true, Host.Outcome.next.injEq] at h
        subst h
        exact .exhausted r hr (.inl hs) hb
      | false =>
        simp only [hb, Bool.false_eq_true, if_false] at h
        exact State.fetchDecode_cases ⟨hr, hb, .inl hs⟩ h
    | blocked =>
      rw [hs] at h
      cases hb : r.spent with
      | true =>
        simp only [hb, if_true, Host.Outcome.next.injEq] at h
        subst h
        exact .exhausted r hr (.inr hs) hb
      | false =>
        simp only [hb, Bool.false_eq_true, if_false] at h
        exact State.fetchDecode_cases ⟨hr, hb, .inr hs⟩ h

/-- The step that fetches a word that does not decode takes the fault, whatever stands in the parameter cells. -/
theorem step_of_decode_error {s : State} {r : Run} {e : DecodeError} (hr : s.coreSteps r) (hp : s.inSpace s.pc)
    (he : decode (s.mem.read s.pc.toNat) = .error e) : step s = .next (s.raise (trapOfDecodeError e)) := by
  have hf : s.fetchDecode = .done (s.raise (trapOfDecodeError e)) := by
    unfold State.fetchDecode
    rw [State.fetch_eq, if_pos hp]
    simp only [State.cell, he]
  unfold step State.turn
  rw [hr.1]
  simp only [State.loopTurn, hr.2.1, Bool.false_eq_true, if_false, hf]
  rcases hr.2.2 with hs | hs <;> rw [hs]

/-! ## The canonical form of the memory, operation by operation -/

theorem State.reset_mem_wf : State.reset.mem.wf := Memory.wf_nil

theorem State.fresh_mem_wf (cfg : Config) (image : List Word) : (State.fresh cfg image).mem.wf := Memory.wf_ofImage 0 image

theorem State.hostReset_mem_wf (s : State) : s.hostReset.mem.wf := Memory.wf_ofImage 0 s.image

theorem State.memWrite_mem_wf {s : State} (h : s.mem.wf) (a : Nat) (v : Word) : (s.memWrite a v).mem.wf :=
  Memory.wf_write h a v

/-- A host call keeps the canonical form: `create` and `reset` make a memory from an image, `restore` takes none that is
not in canonical form, and no other call touches the memory. -/
theorem State.hostCall_mem_wf {s : State} (h : s.mem.wf) (c : HostCall) : (s.hostCall c).mem.wf := by
  cases c with
  | create image =>
    simp only [State.hostCall, State.create]
    split
    · exact Memory.wf_ofImage _ _
    · exact h
  | reset => exact s.hostReset_mem_wf
  | restore c =>
    simp only [State.hostCall, State.restore]
    split
    · rename_i hc
      simp only [Checkpoint.wf, Bool.and_eq_true, decide_eq_true_eq] at hc
      exact hc.1.1.1.2
    · exact h
  | _ => exact h

/-- Placing an instruction keeps it too. -/
theorem State.placeCells_mem_wf (vs : List Word) {s : State} (h : s.mem.wf) (k : Nat) :
    (s.placeCells k vs).mem.wf := by
  induction vs generalizing s k with
  | nil => exact h
  | cons v vs ih =>
    simp only [State.placeCells]
    split
    · exact ih (Memory.wf_write h _ _) _
    · exact ih h _

theorem State.withFetchWord_mem_wf {s : State} (h : s.mem.wf) (nbits w : Nat) : (s.withFetchWord nbits w).mem.wf := by
  unfold State.withFetchWord State.readyToFetch
  split <;> exact State.placeCells_mem_wf _ h 0

end Sys2Proof.Machine
end

