-- ==== Sys2Proof/Laws/System.lean ====
section
/-! SUPPORT. What each operation on several machines does, one lemma each. -/

namespace Sys2Proof.Machine

section
variable (m : Member) (cs : List HostCall) (sys : System) (i j : Nat) (c : HostCall)

@[simp] theorem Member.take_machine : m.take.machine = m.machine := rfl
@[simp] theorem Member.take_taken : m.take.taken = m.machine.replies.length := rfl
@[simp] theorem Member.callAll_machine : (m.callAll cs).machine = { m.machine with calls := m.machine.calls ++ cs } := rfl
@[simp] theorem Member.callAll_taken : (m.callAll cs).taken = m.taken := rfl

/-- Once the host has dealt with a machine's replies, nothing of it is fresh. -/
@[simp] theorem Member.fresh_take : m.take.fresh = [] := by simp [Member.fresh]

/-- Of a machine whose replies have all been dealt with, nothing is fresh. -/
theorem Member.fresh_of_taken {m : Member} (h : m.taken = m.machine.replies.length) : m.fresh = [] := by
  simp [Member.fresh, h]

/-- A further reply adds its `out_new` to the fresh output. -/
theorem Member.fresh_reply {m : Member} (h : m.taken ≤ m.machine.replies.length) (reply : HostReply) :
    Member.fresh { m with machine := { m.machine with replies := m.machine.replies ++ [reply] } }
      = m.fresh ++ outNewOf reply := by
  simp [Member.fresh, List.drop_append_of_le_length h]

/-- A call to come is no output. -/
@[simp] theorem Member.fresh_callAll : (m.callAll cs).fresh = m.fresh := rfl

/-- Which machines there are no operation changes. -/
@[simp] theorem System.length_call : (sys.call i c).length = sys.length := by simp [System.call]
@[simp] theorem System.length_take : (sys.take i).length = sys.length := by simp [System.take]

@[simp] theorem System.length_carry : (sys.carry i j).length = sys.length := by
  unfold System.carry
  split <;> simp

theorem System.getElem?_call (k : Nat) :
    (sys.call i c)[k]? = if i = k then sys[k]?.map (fun m => m.callAll [c]) else sys[k]? := by
  unfold System.call
  rw [List.getElem?_modify]
  split <;> simp

theorem System.getElem?_take (k : Nat) :
    (sys.take i)[k]? = if i = k then sys[k]?.map Member.take else sys[k]? := by
  unfold System.take
  rw [List.getElem?_modify]
  split <;> simp

end

/-- A step of a machine that exists is that machine's step. -/
theorem System.stepAt_eq {sys : System} {i : Nat} {m : Member} {t : State} (hm : sys[i]? = some m)
    (ht : step m.machine = .next t) : sys.stepAt i = .next (sys.set i { m with machine := t }) := by
  unfold System.stepAt
  rw [hm]
  simp only [ht]

/-- Moves are played one after another. -/
theorem System.play_append {sys sys' : System} {ms ns : List HostMove} (h : sys.play ms = .next sys') :
    sys.play (ms ++ ns) = sys'.play ns := by
  induction ms generalizing sys with
  | nil => cases h; rfl
  | cons mv ms ih =>
    simp only [System.play, List.cons_append] at h ⊢
    split at h
    · exact ih h
    · cases h
    · cases h

end Sys2Proof.Machine
end

