-- ==== Sys2Proof/Tests/Slice0.lean ====
section
/-! SUPPORT. The model's own tests: the well-formedness checks, a word written out for every instruction, one step of
every instruction, the host's calls, and for every statement with hypotheses a state that meets them. The expected results
are those of 95_test_vectors.md and 96_test_vectors_families.md, whose row each test names, or are worked out by hand from
the rule it names. -/

namespace Sys2Proof.Tests

open Sys2Proof Sys2Proof.Machine

/-! ## Well-formedness: each check refuses an ill-formed term -/

theorem test_wf_refuses_add : (Instr.add .position .position .immediate).wf = false := by decide
theorem test_wf_refuses_multiply : (Instr.multiply .position .position .immediate).wf = false := by decide
theorem test_wf_refuses_input : (Instr.input .immediate).wf = false := by decide
theorem test_wf_refuses_lessThan : (Instr.lessThan .position .position .immediate).wf = false := by decide
theorem test_wf_refuses_equals : (Instr.equals .position .position .immediate).wf = false := by decide

theorem test_wf_accepts :
    (Instr.add .immediate .immediate .relative).wf = true ∧ (Instr.output .immediate).wf = true ∧
    (Instr.jumpIfTrue .immediate .immediate).wf = true ∧ (Instr.adjustBase .immediate).wf = true ∧
    Instr.halt.wf = true ∧ Config.standard.wf = true ∧ (Config.mk 0).wf = false ∧ (Config.mk (2 ^ 63 + 1)).wf = false := by
  decide

/-! ## One word for every instruction, digit by digit (30_encoding.md R81, R86: opcode, then the mode digits A, B, C with
weights 100, 1000 and 10000; 0 position, 1 immediate, 2 relative) -/

/-- 2 0 1 01: C = 2, B = 0, A = 1, opcode 01. -/
theorem test_decode_add : decode 20101 = .ok (.add .immediate .position .relative) := by decide
/-- 0 1 2 02: C = 0, B = 1, A = 2, opcode 02. -/
theorem test_decode_multiply : decode 1202 = .ok (.multiply .relative .immediate .position) := by decide
/-- 2 03: A = 2, opcode 03. -/
theorem test_decode_input : decode 203 = .ok (.input .relative) := by decide
/-- 1 04: A = 1, opcode 04. -/
theorem test_decode_output : decode 104 = .ok (.output .immediate) := by decide
/-- 2 1 05: B = 2, A = 1, opcode 05. -/
theorem test_decode_jumpIfTrue : decode 2105 = .ok (.jumpIfTrue .immediate .relative) := by decide
/-- 1 0 06: B = 1, A = 0, opcode 06. -/
theorem test_decode_jumpIfFalse : decode 1006 = .ok (.jumpIfFalse .position .immediate) := by decide
/-- 0 2 1 07: C = 0, B = 2, A = 1, opcode 07. -/
theorem test_decode_lessThan : decode 2107 = .ok (.lessThan .immediate .relative .position) := by decide
/-- 2 1 0 08: C = 2, B = 1, A = 0, opcode 08. -/
theorem test_decode_equals : decode 21008 = .ok (.equals .position .immediate .relative) := by decide
/-- 1 09: A = 1, opcode 09. -/
theorem test_decode_adjustBase : decode 109 = .ok (.adjustBase .immediate) := by decide
/-- 99, no parameter; the digits above are ignored (R91). -/
theorem test_decode_halt : decode 99 = .ok .halt ∧ decode 9999 = .ok .halt := by decide

/-- 30_encoding.md R94 (c): "1002" is multiply with modes 0, 1, 0; and R94 (d) assembles it. -/
theorem test_encode_worked : encode (.multiply .position .immediate .position) = 1002 ∧
    encode (.add .immediate .immediate .relative) = 21101 ∧ encode .halt = 99 := by decide

/-- Every word that is no instruction is refused by name: R82 negative, R89 opcode, R90 mode digit, R88 write mode. -/
theorem test_decode_refuses :
    decode (-1) = .error .unknownOpcode ∧ decode (BitVec.ofInt 64 (-2 ^ 63)) = .error .unknownOpcode ∧
    decode 0 = .error .unknownOpcode ∧ decode 10 = .error .unknownOpcode ∧ decode 98 = .error .unknownOpcode ∧
    decode 301 = .error (.illegalMode 1) ∧ decode 9001 = .error (.illegalMode 2) ∧
    decode 30001 = .error (.illegalMode 3) ∧ decode 10001 = .error (.illegalWriteMode 3) ∧
    decode 103 = .error (.illegalWriteMode 1) ∧ decode 403 = .error (.illegalMode 1) := by decide

/-- The largest word, 9223372036854775807, has opcode 07 and mode digits A = 8, so it is no instruction (R81, R90). -/
theorem test_decode_largest : decode (BitVec.ofInt 64 (2 ^ 63 - 1)) = .error (.illegalMode 1) := by decide

/-! ## Helpers -/

/-- A machine just created from `image`, a run without a budget in progress. -/
def machine (image : List Word) (policy : Policy := .streaming) : State :=
  { State.fresh Config.standard image with run := some { policy := policy, budget := none, executed := 0, mark := 0 } }

/-- The same with a smaller address space. -/
def machineOf (limit : Nat) (image : List Word) : State := { machine image with cfg := { addrLimit := limit } }

/-- The state of an outcome, if it is a next state. -/
def nextOf (o : Host.Outcome State Fault Refusal) : Option State :=
  match o with
  | .next s => some s
  | .fault _ => none
  | .refused _ => none

/-- What one step leaves of interest. -/
def after1 {α : Type} (f : State → α) (s : State) : Option α := (nextOf (step s)).map f

/-- A machine between runs with calls to make. -/
def idle (image : List Word) (calls : List HostCall) : State :=
  { State.fresh Config.standard image with calls := calls }

/-- The run of `machine`. -/
def openRun (policy : Policy := .streaming) : Run := { policy := policy, budget := none, executed := 0, mark := 0 }

/-! ## One step of every instruction -/

/-- Row ADD4: `9223372036854775807 + 1` wraps. -/
theorem test_add_wraps : after1 (fun t => ((t.mem.read 5).toInt, t.pc)) (machine [1101, 9223372036854775807, 1, 5, 99, 0])
    = some (-9223372036854775808, 4) := by decide

/-- Row ADD7: the third parameter is its own destination, read before it is written. -/
theorem test_add_overwrites_its_parameter : after1 (fun t => (t.mem.read 3, t.pc)) (machine [1, 3, 3, 3, 99])
    = some (6, 4) := by decide

/-- Row MUL7: `-2^63 * -1` wraps. -/
theorem test_multiply_wraps : after1 (fun t => (t.mem.read 5).toInt)
    (machine [1102, -9223372036854775808, -1, 5, 99, 0]) = some (-9223372036854775808) := by decide

/-- Scenario S2: the word 1002, operands an address and a literal. -/
theorem test_multiply_modes : after1 (fun t => (t.mem.read 4, t.pc)) (machine [1002, 4, 3, 4, 33]) = some (99, 4) := by
  decide

/-- Row IN4: one value is consumed, the other stays queued. -/
theorem test_input_takes_the_head :
    after1 (fun t => (t.mem.read 0, t.inq, t.pc)) ({ machine [3, 0, 99] with inq := [7, 8] }) = some (7, [8], 2) := by
  decide

/-- Rows IN2 and IN3: the empty queue under the two policies. -/
theorem test_input_empty :
    after1 (fun t => (t.status, t.pc, t.replies)) (machine [3, 0, 99])
      = some (.blocked, 0, [.ran .blockedOnInput []]) ∧
    after1 (fun t => (t.status, t.fault)) (machine [3, 0, 99] .batch)
      = some (.faulted, some { kind := .inputExhausted, code := 6, atPc := 0, word := some 3, param := none }) := by decide

/-- Row OUT3: a cell beyond the image reads 0. -/
theorem test_output_beyond_image : after1 (fun t => (t.out, t.pc)) (machine [4, 1000, 99]) = some ([0], 2) := by decide

/-- Row OUT1: a negative literal, appended after what the log holds. -/
theorem test_output_appends :
    after1 (fun t => t.out.map BitVec.toInt) ({ machine [104, -5, 99] with out := [9] }) = some [9, -5] := by decide

/-- Row JMP3: a negative condition is true. -/
theorem test_jumpIfTrue_negative : after1 (fun t => t.pc) (machine [1105, -1, 4, 99, 104, 7, 99]) = some 4 := by decide

/-- Row JMP9: a bad target is loaded; the jump retires. -/
theorem test_jumpIfTrue_bad_target : after1 (fun t => (t.pc, t.status)) (machine [1105, 1, -5]) = some (-5, .running) := by
  decide

/-- Rows JMP4 and JMP5. -/
theorem test_jumpIfFalse : after1 (fun t => t.pc) (machine [1106, 0, 4, 99, 104, 7, 99]) = some 4 ∧
    after1 (fun t => t.pc) (machine [1106, 5, 4, 99]) = some 3 := by decide

/-- Row JMP13: the target operand is resolved although the jump is not taken. -/
theorem test_jumpIfFalse_resolves_target : after1 (fun t => (t.status, t.fault)) (machine [6, 0, -1, 99])
    = some (.faulted, some { kind := .negativeAddress, code := 3, atPc := 0, word := some 6, param := some 2 }) := by decide

/-- 44_compare.md R160: signed, and strict. -/
theorem test_lessThan_signed : after1 (fun t => t.mem.read 5) (machine [1107, -1, 0, 5, 99, 7]) = some 1 ∧
    after1 (fun t => t.mem.read 5) (machine [1107, 3, 3, 5, 99, 7]) = some 0 := by decide

/-- 44_compare.md R160 at the ends of the range. -/
theorem test_lessThan_extremes :
    after1 (fun t => t.mem.read 5) (machine [1107, -9223372036854775808, 9223372036854775807, 5, 99, 7]) = some 1 ∧
    after1 (fun t => t.mem.read 5) (machine [1107, 9223372036854775807, -9223372036854775808, 5, 99, 7]) = some 0 := by
  decide

/-- 44_compare.md R161. -/
theorem test_equals : after1 (fun t => (t.mem.read 5, t.pc)) (machine [1108, -8, -8, 5, 99, 7]) = some (1, 4) ∧
    after1 (fun t => t.mem.read 5) (machine [1108, 8, -8, 5, 99, 7]) = some 0 := by decide

/-- 45_adjust_base.md R170, 40_operands.md R114: the operand is read through the old base, 1 + 1. -/
theorem test_adjustBase_uses_old_base : after1 (fun t => (t.rb, t.pc)) ({ machine [209, 1, 40] with rb := 1 }) = some (41, 2) := by
  decide

/-- 45_adjust_base.md R170: the base wraps (D3). -/
theorem test_adjustBase_wraps :
    after1 (fun t => t.rb.toInt) ({ machine [109, 1] with rb := 9223372036854775807 }) = some (-9223372036854775808) := by
  decide

/-- 46_halt.md R175: pc stays, nothing is counted, the run returns. -/
theorem test_halt : after1 (fun t => (t.status, t.pc, t.run, t.replies)) (machine [99])
    = some (.halted, 0, none, [.ran .halted []]) := by decide

/-- 95_test_vectors.md section 2.2, and the hypotheses of the statement about wrap64 at both ends of the range. -/
theorem test_wrap :
    (wrap64 (2 ^ 63)).toInt = -2 ^ 63 ∧ (wrap64 (-2 ^ 63 - 1)).toInt = 2 ^ 63 - 1 ∧ (wrap64 (2 ^ 64 - 2)).toInt = -2 ∧
    (wrap64 (3037000500 * 3037000500)).toInt = -9223372036709301616 ∧
    (-2 ^ 63 : Int) ≤ -2 ^ 63 ∧ (-2 ^ 63 : Int) ≤ 2 ^ 63 - 1 := by decide

/-! ## Faults, the loop, the host -/

/-- 20_memory.md R54, R55 at both ends of an address space of 8 cells: the last cell is written, the next is not. -/
theorem test_store_at_the_ceiling :
    after1 (fun t => (t.mem.read 7, t.status)) (machineOf 8 [1101, 2, 3, 7]) = some (5, .running) ∧
    after1 (fun t => t.fault) (machineOf 8 [1101, 2, 3, 8])
      = some (some { kind := .capacityExceeded, code := 5, atPc := 0, word := some 1101, param := some 3 }) ∧
    after1 (fun t => t.fault) (machineOf 8 [1101, 2, 3, -1])
      = some (some { kind := .negativeAddress, code := 3, atPc := 0, word := some 1101, param := some 3 }) := by decide

/-- A parameter cell beyond the ceiling (row NEW of 96_test_vectors_families.md; 40_operands.md R115). -/
theorem test_parameter_cell_beyond_ceiling : after1 (fun t => t.fault) (machineOf 2 [1101, 2])
    = some (some { kind := .capacityExceeded, code := 5, atPc := 0, word := some 1101, param := some 2 }) := by decide

/-- Row JMP14 and its neighbour below 0: a fetch outside the address space names no word. -/
theorem test_fetch_outside :
    after1 (fun t => t.fault) ({ machineOf 4 [] with pc := 4 })
      = some (some { kind := .capacityExceeded, code := 5, atPc := 4, word := none, param := none }) ∧
    after1 (fun t => t.fault) ({ machineOf 4 [] with pc := -1 })
      = some (some { kind := .negativeAddress, code := 3, atPc := -1, word := none, param := none }) ∧
    after1 (fun t => t.fault) ({ machineOf 4 [] with pc := 3 })
      = some (some { kind := .unknownOpcode, code := 1, atPc := 3, word := some 0, param := none }) := by decide

/-- 47_dispatch_loop.md R184: a budget of 0, a negative one, and one that is reached. -/
theorem test_budget :
    after1 (fun t => (t.replies, t.pc)) ({ machine [99] with run := some { openRun with budget := some 0 } })
      = some ([.ran .budgetExhausted []], 0) ∧
    after1 (fun t => t.status) ({ machine [99] with run := some { openRun with budget := some (-1) } }) = some .halted ∧
    after1 (fun t => t.replies) ({ machine [99] with run := some { openRun with budget := some 2, executed := 2 } })
      = some [.ran .budgetExhausted []] := by decide

/-- 48_host_operations.md R200 and the range of an image value (D21). -/
theorem test_create :
    after1 (fun t => (t.mem, t.replies)) (idle [] [.create [0, 99]]) = some ([(1, 99)], [.created]) ∧
    after1 (fun t => (t.mem, t.replies)) (idle [1] [.create [9223372036854775808]]) = some ([(0, 1)], [.refused]) ∧
    after1 (fun t => t.replies) (idle [] [.create [-9223372036854775808]]) = some [.created] := by decide

/-- 48_host_operations.md R201, R202. -/
theorem test_push_and_drain :
    after1 (fun t => (t.inq, t.status)) ({ idle [3, 0] [.pushInput 5] with status := .blocked, inq := [] })
      = some ([5], .running) ∧
    after1 (fun t => t.status) ({ idle [99] [.pushInput 5] with status := .halted }) = some .halted ∧
    after1 (fun t => (t.out, t.replies)) ({ idle [] [.drainOutput] with out := [1, 2] }) = some ([], [.drained [1, 2]]) := by
  decide

/-- 48_host_operations.md R203: memory from the image, the log kept. -/
theorem test_reset_call : after1 (fun t => (t.mem, t.pc, t.out, t.status))
    ({ idle [7] [.reset] with mem := [(5, 1)], pc := 9, out := [3], status := .halted })
    = some ([(0, 7)], 0, [3], .running) := by decide

/-- 48_host_operations.md R204, R205: a Halted machine is saved as done, a restored one without the flag runs. -/
theorem test_save_restore :
    after1 (fun t => t.replies) ({ idle [7] [.save] with pc := 9, status := .halted })
      = some [.saved { addrLimit := 2 ^ 63, memorySnapshot := [(0, 7)], programCounter := 9, relativeBase := 0,
                       doneFlag := true }] ∧
    after1 (fun t => (t.mem, t.pc, t.rb, t.status))
        (idle [7] [.restore { addrLimit := 2 ^ 63, memorySnapshot := [(2, 5)], programCounter := 4, relativeBase := 6,
                              doneFlag := false }])
      = some ([(2, 5)], 4, 6, .running) := by decide

/-- A step with no run and no call changes nothing (log 7). -/
theorem test_idle : after1 id (idle [99] []) = some (idle [99] []) := by decide

/-- A machine of a host that has dealt with none of its replies. -/
def member (s : State) : Member := { machine := s, taken := 0 }

/-- What is played of a host's moves, seen through `f`. -/
def played {α : Type} (f : System → α) (sys : System) (ms : List HostMove) : Option α :=
  match sys.play ms with
  | .next t => some (f t)
  | .fault _ => none
  | .refused _ => none

/-- 60_exceptions.md R236: outputs of one machine become pushes on another, once. -/
theorem test_carry :
    ((System.carry [member { idle [] [] with replies := [.ran .halted [1, 2], .ran .halted [3]] }, member (idle [] [])] 0 1)[1]?.map
        fun m => m.machine.calls)
      = some [.pushInput 1, .pushInput 2, .pushInput 3] ∧
    (((System.carry [member { idle [] [] with replies := [.ran .halted [1]] }, member (idle [] [])] 0 1).carry 0 1)[1]?.map
        fun m => m.machine.calls)
      = some [.pushInput 1] := by decide

/-- Run, carry, run, as in 95_test_vectors.md P5: what the first machine puts out the second one reads. -/
theorem test_carried_value_is_consumed :
    played (fun t => t[1]?.map fun m => m.machine.mem.read 0) [member (idle [104, 7, 99] []), member (idle [3, 0, 99] [])]
      [.call 0 (.run .streaming (some 1)), .step 0, .step 0, .step 0, .carry 0 1, .call 1 (.run .streaming none),
        .step 1, .step 1, .step 1] = some (some 7) := by decide

/-- 70_reset_and_hazards.md R261 (b): blocked machines with nothing to come are deadlocked; with an output still to be
carried they are not. -/
theorem test_deadlocked :
    System.deadlocked [member { idle [3, 0] [] with status := .blocked }, member { idle [3, 0] [] with status := .blocked }] = true ∧
    System.deadlocked [member { idle [3, 0] [] with status := .blocked, replies := [.ran .blockedOnInput [5]] }] = false ∧
    System.deadlocked [member { idle [3, 0] [.pushInput 1] with status := .blocked }] = false ∧
    System.deadlocked [member (idle [3, 0] [])] = false := by decide

/-- A ring's turn gives the machine its call, its steps, and its output to the next one, the last one's to the first. -/
theorem test_ringTurn : ringTurn 2 1 1
    = [.call 1 (.run .streaming (some 1)), .step 1, .step 1, .step 1, .step 1, .carry 1 0] := by decide

/-- 93_implementation_defined.md V18 and log 11: what is no checkpoint of the machine is refused, and nothing changes. -/
theorem test_restore_refuses :
    after1 id (idle [7] [.restore { (idle [7] []).checkpoint with addrLimit := 8 }])
      = some { idle [7] [] with replies := [.refused] } ∧
    after1 id (idle [7] [.restore { (idle [7] []).checkpoint with programCounter := 2 ^ 63 + 1 }])
      = some { idle [7] [] with replies := [.refused] } := by decide

/-- 47_dispatch_loop.md R183: a run begins with its arguments, its count at 0 and its mark at the end of the log. -/
theorem test_run_begins :
    after1 State.run ({ idle [99] [.run .batch (some 5)] with out := [1, 2] })
      = some (some { policy := .batch, budget := some 5, executed := 0, mark := 2 }) := by decide

/-- The placed instruction is the one executed (log 6): `104` followed by the operand cell 5. -/
theorem test_withFetchWord :
    after1 (fun t => t.out) (State.reset.withFetchWord 128 (104 + 5 * 2 ^ 64)) = some [5] ∧
    decodeTableWord 128 (104 + 5 * 2 ^ 64) = some (.output .immediate) ∧
    after1 (fun t => t.status) (State.reset.withFetchWord 8 99) = some .halted := by decide

/-! ## Witnesses: for each statement with hypotheses, a state and operands that meet them, at the boundary of each clause -/

theorem test_witness_decodeAfterEncode : (Instr.equals .immediate .relative .relative).wf = true := by decide

theorem test_witness_decodedFields : decode 20108 = .ok (.equals .immediate .position .relative) ∧
    (Instr.equals .immediate .position .relative).modes[2]? = some .relative := by decide

/-- The two ends of the illegal opcodes 10..98, and 0, each fetched by a machine in a run. -/
theorem test_witness_illegalOpcode :
    (0 ≤ (98 : Word).toInt ∧ 10 ≤ (98 : Word).toNat % 100 ∧ (98 : Word).toNat % 100 ≤ 98) ∧
    (0 ≤ (110 : Word).toInt ∧ 10 ≤ (110 : Word).toNat % 100 ∧ (110 : Word).toNat % 100 ≤ 98) ∧
    (0 ≤ (300 : Word).toInt ∧ (300 : Word).toNat % 100 = 0) ∧
    (machine [98]).coreSteps openRun ∧ (machine [98]).inSpace (machine [98]).pc ∧
    (machine [98]).mem.read (machine [98]).pc.toNat = 98 ∧
    (machine []).coreSteps openRun ∧ (machine []).inSpace (machine []).pc ∧
    ∀ c ∈ (machine []).mem, c.1 ≠ (machine []).pc.toNat := by decide

/-- Immediate write digits after the legal digits 0 and 2, with opcodes 1 and 7, and for input. -/
theorem test_witness_immediateWrite :
    (0 ≤ (12001 : Word).toInt ∧ (12001 : Word).toNat % 100 = 1 ∧ digit (12001 : Word).toNat 2 < 3 ∧
      digit (12001 : Word).toNat 3 < 3 ∧ digit (12001 : Word).toNat 4 = 1) ∧
    (0 ≤ (10207 : Word).toInt ∧ (10207 : Word).toNat % 100 = 7 ∧ digit (10207 : Word).toNat 2 < 3 ∧
      digit (10207 : Word).toNat 3 < 3 ∧ digit (10207 : Word).toNat 4 = 1) ∧
    0 ≤ (103 : Word).toInt ∧ (103 : Word).toNat % 100 = 3 ∧ digit (103 : Word).toNat 2 = 1 := by decide

/-- Rows FLT6 and FLT13 and a negative word: the step takes the decode fault, before the address fault of parameter 1. -/
theorem test_decode_faults_taken :
    after1 (fun t => (t.status, t.fault)) (machine [304, 0, 99])
      = some (.faulted, some { kind := .illegalMode, code := 4, atPc := 0, word := some 304, param := some 1 }) ∧
    after1 (fun t => (t.status, t.fault)) (machine [10001, -1, 0, 0])
      = some (.faulted, some { kind := .illegalWriteMode, code := 2, atPc := 0, word := some 10001, param := some 3 }) ∧
    after1 (fun t => (t.status, t.fault)) (machine [-1])
      = some (.faulted, some { kind := .unknownOpcode, code := 1, atPc := 0, word := some (-1), param := none }) := by
  decide

/-- A machine at a word of each decode fault, the parameter the last and the first, and an address fault beside them. -/
theorem test_witness_decodeFaults :
    ((machine [-1]).coreSteps openRun ∧ (machine [-1]).inSpace (machine [-1]).pc ∧
      (machine [-1]).mem.read (machine [-1]).pc.toNat = -1 ∧ decode (-1) = .error .unknownOpcode) ∧
    ((machine [10001, -1, 0, 0]).coreSteps openRun ∧ (machine [10001, -1, 0, 0]).inSpace (machine [10001, -1, 0, 0]).pc ∧
      (machine [10001, -1, 0, 0]).mem.read (machine [10001, -1, 0, 0]).pc.toNat = 10001 ∧
      decode 10001 = .error (.illegalWriteMode 3)) ∧
    ((machine [904, -1]).coreSteps openRun ∧ (machine [904, -1]).inSpace (machine [904, -1]).pc ∧
      (machine [904, -1]).mem.read (machine [904, -1]).pc.toNat = 904 ∧ decode 904 = .error (.illegalMode 1)) := by decide

/-- The first and the last address, and the integers next to them. -/
theorem test_witness_address :
    ¬ (machineOf 8 []).inSpace (-1) ∧ (machineOf 8 []).inSpace 0 ∧ (machineOf 8 []).inSpace 7 ∧
    ¬ (machineOf 8 []).inSpace 8 ∧ (∀ c ∈ (machineOf 8 []).mem, c.1 ≠ 7) := by decide

/-- A destination that resolves, at the last address, in a memory in canonical form. -/
theorem test_witness_memWrite : (machineOf 8 [3, 7]).dst 1 .position = .ok 7 ∧ (machineOf 8 [3, 7]).mem.wf ∧
    (0 : Nat) ≠ 7 := by decide

theorem test_witness_equalMemories : Memory.wf [(1, 5)] ∧ Memory.wf (Memory.write [(1, 4)] 1 5) ∧
    ∀ a, Memory.read [(1, 5)] a = Memory.read (Memory.write [(1, 4)] 1 5) a := by
  rw [show Memory.write [(1, 4)] 1 5 = [(1, 5)] by decide]
  exact ⟨by decide, by decide, fun _ => rfl⟩

/-- A parameter in the last cell, its literal the last address, and the base that makes it address 0. -/
theorem test_witness_readOperand :
    (machineOf 8 [0, 7]).inSpace ((machineOf 8 [0, 7]).pc + (1 : Nat)) ∧
    (machineOf 8 [0, 7]).mem.read ((machineOf 8 [0, 7]).pc + (1 : Nat)).toNat = 7 ∧
    (machineOf 8 [0, 7]).inSpace (7 : Word).toInt ∧
    ({ machineOf 8 [0, 7] with rb := -7 } : State).inSpace ((-7 : Word).toInt + (7 : Word).toInt) := by decide

/-- Effective addresses -1, 8 (the ceiling), 0 and 7 in both modes; and another memory with the same parameter cell. -/
theorem test_witness_effectiveAddress :
    ((-1 : Word).toInt < 0 ∧ (machineOf 8 [0, -1]).mem.read 1 = -1) ∧
    (((8 : Word).toInt = 8 ∧ (machineOf 8 [0, 8]).mem.read 1 = 8) ∧
      ((machineOf 8 []).cfg.addrLimit : Int) ≤ (8 : Word).toInt) ∧
    (machineOf 8 [0, 8]).inSpace ((-1 : Word).toInt + (8 : Word).toInt) ∧
    (-9 : Word).toInt + (8 : Word).toInt < 0 ∧
    Memory.read [(1, 8), (6, 3)] 1 = 8 := by decide

/-- A machine on which each parameter in turn is the first that does not resolve. -/
theorem test_witness_firstUnresolvable :
    (¬ (machine [1, -1, 0, 0]).readable 1 .position) ∧
    ((machine [1, 0, -1, 0]).readable 1 .position ∧ ¬ (machine [1, 0, -1, 0]).readable 2 .position) ∧
    ((machine [1, 0, 0, -1]).readable 1 .position ∧ (machine [1, 0, 0, -1]).readable 2 .position ∧
      ¬ (machine [1, 0, 0, -1]).writable 3 .position) ∧
    ¬ (machine [3, -1]).writable 1 .position ∧ ¬ (machineOf 1 [4]).readable 1 .immediate := by decide

/-- Operands that resolve, up to a destination in the last cell of the address space: the hypotheses of the results of
add, multiply, less-than and equals. -/
theorem test_witness_storing :
    (machineOf 8 [1, 0, 7, 7]).readable 1 .position ∧ (machineOf 8 [1, 0, 7, 7]).readable 2 .position ∧
    (machineOf 8 [1, 0, 7, 7]).writable 3 .position ∧
    (machineOf 4 [21101, 5, 5, -9]).readable 1 .immediate ∧ (machineOf 4 [21101, 5, 5, -9]).readable 2 .immediate ∧
    ({ machineOf 4 [21101, 5, 5, -9] with rb := 12 } : State).writable 3 .relative := by decide

/-- The hypotheses of the results of input with a value and of the three cases without. -/
theorem test_witness_input :
    (({ machine [3, 0] with inq := [7, 8] } : State).writable 1 .position ∧
      ({ machine [3, 0] with inq := [7, 8] } : State).inq = 7 :: [8]) ∧
    ((machine [3, 0]).writable 1 .position ∧ (machine [3, 0]).inq = [] ∧ (machine [3, 0]).run = some openRun ∧
      openRun.policy = .streaming) ∧
    ((machine [3, 0] .batch).writable 1 .position ∧ (machine [3, 0] .batch).run = some (openRun .batch) ∧
      (openRun .batch).policy = .batch) ∧
    ((idle [3, 0] []).writable 1 .position ∧ (idle [3, 0] []).run = none) := by decide

/-- The hypotheses of the results of output, adjust-base and the jumps, in each mode. -/
theorem test_witness_reading :
    (machineOf 2 [104, 5]).readable 1 .immediate ∧ (machineOf 2 [4, 1]).readable 1 .position ∧
    ({ machineOf 2 [204, 5] with rb := -5 } : State).readable 1 .relative ∧
    (machineOf 3 [1105, 1, -5]).readable 1 .immediate ∧ (machineOf 3 [1105, 1, -5]).readable 2 .immediate := by decide

/-- The machines with and without a run of the result of halt. -/
theorem test_witness_halt : (machine [99]).run = some openRun ∧ (idle [99] []).run = none := by decide

/-- The hypotheses of the frames: each instruction answers a next state, with resolvable operands and with a fault. -/
theorem test_witness_frames :
    (∃ t, exec (.add .position .position .position) (machine [1, 0, 0, 0]) = .next t) ∧
    (∃ t, exec (.multiply .position .position .position) (machine [2, 0, 0, -1]) = .next t) ∧
    (∃ t, exec (.lessThan .position .position .position) (machine [7, 0, 0, 0]) = .next t) ∧
    (∃ t, exec (.equals .position .position .position) (machine [8, 0, 0, 0]) = .next t) ∧
    (∃ t, exec (.input .position) (machine [3, 0]) = .next t) ∧
    (∃ t, exec (.input .position) ({ machine [3, 0] with inq := [7] }) = .next t) ∧
    (∃ t, exec (.output .position) (machine [4, -1]) = .next t) ∧
    (∃ t, exec (.jumpIfTrue .immediate .immediate) (machine [1105, 1, 4]) = .next t) ∧
    (∃ t, exec (.jumpIfFalse .immediate .position) (machine [106, 1, -4]) = .next t) ∧
    (∃ t, exec (.adjustBase .immediate) (machine [109, 1]) = .next t) ∧
    (∃ t, exec .halt (machine [99]) = .next t) :=
  ⟨⟨_, rfl⟩, ⟨_, rfl⟩, ⟨_, rfl⟩, ⟨_, rfl⟩, ⟨_, rfl⟩, ⟨_, rfl⟩, ⟨_, rfl⟩, ⟨_, rfl⟩, ⟨_, rfl⟩, ⟨_, rfl⟩, ⟨_, rfl⟩⟩

/-- The premises inside the frames: a resolution that answers and one that faults. -/
theorem test_witness_frame_clauses :
    (machine [1, 0, 0, 6]).dst 3 .position = .ok 6 ∧
    (machine [1, 0, 0, 6]).resolveRRW .position .position .position = .ok (1, 1, 6) ∧
    (machine [1, 0, 0, -1]).resolveRRW .position .position .position
      = .error { kind := .negativeAddress, param := some 3 } ∧
    (machine [3, 6]).dst 1 .position = .ok 6 ∧
    (machine [3, -1]).dst 1 .position = .error { kind := .negativeAddress, param := some 1 } ∧
    (machine [104, 6]).val 1 .immediate = .ok 6 ∧
    (machine [4, -1]).val 1 .position = .error { kind := .negativeAddress, param := some 1 } ∧
    (machine [1105, 1, 4]).resolveRR .immediate .immediate = .ok (1, 4) ∧
    (machine [105, 1, -4]).resolveRR .immediate .position = .error { kind := .negativeAddress, param := some 2 } := by
  decide

/-- A step that executes, from Running and from Blocked, at the first and the last address. -/
theorem test_witness_step :
    (machineOf 1 [99]).run = some openRun ∧ openRun.spent = false ∧ (machineOf 1 [99]).status = .running ∧
    0 ≤ (machineOf 1 [99]).pc ∧ (machineOf 1 [99]).pc < ((machineOf 1 [99]).cfg.addrLimit : Int) ∧
    decode ((machineOf 1 [99]).mem.read (machineOf 1 [99]).pc.toNat) = .ok .halt ∧
    ({ machine [3, 0] with status := .blocked } : State).status = .blocked ∧
    decode (({ machine [3, 0] with status := .blocked } : State).mem.read 0) = .ok (.input .position) := by decide

/-- `pc` at -1, at the ceiling, at the last address and at an unwritten cell. -/
theorem test_witness_fetch :
    (∀ p ∈ ([-1, 4, 3, 0] : List Int), ({ machineOf 4 [] with pc := p } : State).coreSteps openRun) ∧
    ((4 : Nat) : Int) ≤ 4 ∧ ({ machineOf 4 [] with pc := 3 } : State).inSpace 3 ∧ (machineOf 4 []).mem.wf ∧
    ∀ c ∈ (machineOf 4 []).mem, c.1 ≠ 3 := by decide

/-- A step of each of the four results. -/
theorem test_witness_fourResults :
    (machine [104, 1]).coreSteps openRun ∧ after1 State.status (machine [104, 1]) = some .running ∧
    (machine [99]).coreSteps openRun ∧ after1 State.status (machine [99]) = some .halted ∧
    (machine [3, 0]).coreSteps openRun ∧ after1 State.status (machine [3, 0]) = some .blocked ∧
    (machine [0]).coreSteps openRun ∧ after1 State.status (machine [0]) = some .faulted := by decide

theorem test_witness_fault : (machine [0]).run = some openRun := by decide

/-- An instruction that faults on an operand, an ill-formed one, and an input the batch policy turns into a fault. -/
theorem test_witness_raising :
    (nextOf (exec (.output .position) (machine [4, -1]))).map State.status = some .faulted ∧
    (nextOf (exec (.input .immediate) (machine [103, 0]))).map State.status = some .faulted ∧
    (nextOf (exec (.input .position) (machine [3, 0] .batch))).map State.status = some .faulted ∧
    (machine [4, -1]).status ≠ .faulted := by decide

/-- Budgets that are reached, on a Running and on a Blocked machine; and those that never are. -/
theorem test_witness_budget :
    (({ openRun with budget := some 0 } : Run).budget = some 0 ∧ (0 : Int) ≤ ((openRun).executed : Int)) ∧
    (openRun.budget = none) ∧ ((-1 : Int) < 0) ∧ (((2 : Nat) : Int) < 3) ∧
    (idle [99] [.run .batch (some 0)]).run = none ∧
    (idle [99] [.run .batch (some 0)]).calls = .run .batch (some 0) :: [] ∧
    (idle [99] [.run .batch (some 0)]).status = .running := by decide

/-- Halted and Faulted machines whose host calls run, with a budget of 0 and with none. -/
theorem test_witness_runOnStopped :
    (({ idle [99] [.run .batch (some 0)] with status := .halted } : State).run = none ∧
      ({ idle [99] [.run .batch (some 0)] with status := .halted } : State).status = .halted) ∧
    (({ idle [0] [.run .streaming none] with status := .faulted } : State).run = none ∧
      ({ idle [0] [.run .streaming none] with status := .faulted } : State).calls = .run .streaming none :: [] ∧
      ({ idle [0] [.run .streaming none] with status := .faulted } : State).status = .faulted) := by decide

/-- A Blocked machine at its input: with a value pushed, and without under either policy. -/
theorem test_witness_blocked :
    ({ machine [3, 0] with status := .blocked, inq := [7] } : State).coreSteps openRun ∧
    ({ machine [3, 0] with status := .blocked, inq := [7] } : State).nextInstr = some (.input .position) ∧
    ({ machine [3, 0] with status := .blocked, inq := [7] } : State).writable 1 .position ∧
    ({ machine [3, 0] with status := .blocked } : State).coreSteps openRun ∧
    ({ machine [3, 0] with status := .blocked } : State).inq = [] ∧
    ({ machine [3, 0] .batch with status := .blocked } : State).coreSteps (openRun .batch) := by decide

/-- Runs that begin, go on and return, with each outcome. -/
theorem test_witness_runs :
    (idle [99] [.run .batch none]).run = none ∧ (idle [99] [.run .batch none]).calls = .run .batch none :: [] ∧
    after1 State.run (machine [104, 1]) = some (some openRun.count) ∧
    after1 (fun t => (t.run, t.replies)) (machine [99]) = some (none, [.ran .halted []]) ∧
    after1 (fun t => (t.run, t.replies)) (machine [3, 0]) = some (none, [.ran .blockedOnInput []]) ∧
    after1 (fun t => t.run) (machine [0]) = some none ∧
    after1 (fun t => (t.run, t.replies)) ({ machine [99] with run := some { openRun with budget := some 0 } })
      = some (none, [.ran .budgetExhausted []]) := by decide

/-- The premises of the rules on the image and on the log. -/
theorem test_witness_image_and_log :
    imageOk Config.standard [-9223372036854775808, 9223372036854775807] = true ∧ imageOk { addrLimit := 1 } [5] = true ∧
    (∃ t, step (idle [7] [.reset]) = .next t) ∧ (idle [7] [.reset]).nextCall = some .reset ∧
    (∃ t, step (machine [104, 1]) = .next t) ∧ (machine [104, 1]).nextCall = none ∧
    (∃ t, exec (.output .immediate) (machine [104, 1]) = .next t) :=
  ⟨by decide, by decide, ⟨_, rfl⟩, by decide, ⟨_, rfl⟩, by decide, ⟨_, rfl⟩⟩

/-- A step of each event that changes the status. -/
theorem test_witness_statusChanges :
    after1 State.status (machine [99]) = some .halted ∧ after1 State.status (machine [3, 0]) = some .blocked ∧
    after1 State.status (machine [0]) = some .faulted ∧
    after1 State.status ({ idle [3, 0] [.pushInput 1] with status := .blocked }) = some .running ∧
    after1 State.status ({ idle [99] [.reset] with status := .halted }) = some .running ∧
    after1 State.status ({ idle [99] [.create []] with status := .halted }) = some .running ∧
    after1 State.status (idle [99] [.restore { (idle [99] []).checkpoint with doneFlag := true }]) = some .halted := by
  decide

/-- Steps that write memory, the base and the queue. -/
theorem test_witness_writers :
    after1 State.mem (machine [1101, 2, 3, 5]) ≠ some (machine [1101, 2, 3, 5]).mem ∧
    after1 State.rb (machine [109, 1]) = some 1 ∧
    after1 State.inq ({ machine [3, 0] with inq := [7] }) = some [] ∧
    after1 State.inq (idle [] [.pushInput 7]) = some [7] := by decide

/-- A Blocked machine between runs, its host about to push, run and drain. -/
def waiting : State :=
  { idle [3, 0, 4, 0, 99] [.pushInput 7, .run .streaming none, .drainOutput] with status := .blocked }

/-- It meets the invariant, as the premises of the invariant step and of checkpoint transparency ask. -/
theorem test_witness_invariant : waiting.Inv :=
  { limitLegal := by decide, memCanonical := by decide, memBelow := by decide, imageFits := by decide,
    pcInRange := by decide, faultIffFaulted := by decide, faultFits := by intro f h; exact (nomatch h),
    blockedWaits := fun _ => ⟨by decide, .position, by decide, by decide⟩,
    markInLog := by intro r h; exact (nomatch h), withinBudget := by intro r b h; exact (nomatch h) }

theorem test_witness_invariant_step : ∃ t, step waiting = .next t := ⟨_, rfl⟩

theorem test_witness_transparency : waiting.run = none ∧ waiting.status ≠ .faulted ∧
    HostCall.inspect .status ∉ waiting.calls := by decide

/-- Two states alike to the core that differ in log, image, status and budget. -/
theorem test_witness_sameToCore :
    SameToCore (machine [104, 1])
      { machine [104, 1] with out := [9], image := [], status := .blocked,
                              run := some { openRun with budget := some 5, executed := 2, mark := 1 } } ∧
    ∃ t, exec (.output .immediate) (machine [104, 1]) = .next t :=
  ⟨⟨rfl, rfl, rfl, rfl, rfl, rfl⟩, ⟨_, rfl⟩⟩

theorem test_witness_rerun : (idle [99] []).run = none ∧
    ∀ c ∈ ([.pushInput 3, .run .batch none] : List HostCall), c.feedsOrRuns = true := by decide

/-- Row ADD8: the store to pc + 4 whose word is fetched next. -/
theorem test_witness_storeThenFetch :
    (machine [1101, 50, 49, 4, 0]).mem.wf ∧
    (machine [1101, 50, 49, 4, 0]).resolveRRW .immediate .immediate .position = .ok (50, 49, 4) ∧
    (machine [1101, 50, 49, 4, 0]).pc + 4 = ((4 : Nat) : Int) ∧
    after1 (fun t => t.nextInstr) (machine [1101, 50, 49, 4, 0]) = some (some .halt) := by decide

/-- Images a create accepts and refuses, at the ends of both conditions. -/
theorem test_witness_create :
    (idle [] [.create [1]]).run = none ∧ (idle [] [.create [1]]).calls = .create [1] :: [] ∧
    (([5] : List Int).length ≤ 1 ∧ ∀ v ∈ ([5] : List Int), -2 ^ 63 ≤ v ∧ v ≤ 2 ^ 63 - 1) ∧
    (∀ v ∈ ([-2 ^ 63, 2 ^ 63 - 1] : List Int), -2 ^ 63 ≤ v ∧ v ≤ 2 ^ 63 - 1) ∧
    ¬ (([5, 6] : List Int).length ≤ 1) ∧ ¬ (∀ v ∈ ([2 ^ 63] : List Int), -2 ^ 63 ≤ v ∧ v ≤ 2 ^ 63 - 1) ∧
    ¬ (∀ v ∈ ([-2 ^ 63 - 1] : List Int), -2 ^ 63 ≤ v ∧ v ≤ 2 ^ 63 - 1) := by decide

/-- Hosts about to make each of the other calls. -/
theorem test_witness_calls :
    (idle [] [.pushInput 1]).calls = .pushInput 1 :: [] ∧ (idle [] [.drainOutput]).calls = .drainOutput :: [] ∧
    (idle [] [.reset]).calls = .reset :: [] ∧ (idle [] [.save]).calls = .save :: [] ∧
    (idle [] [.inspect (.cell (-1))]).calls = .inspect (.cell (-1)) :: [] ∧
    ¬ (idle [] []).inSpace (-1) ∧ (idle [] []).inSpace 0 ∧ (idle [] []).run = none := by decide

/-- A checkpoint of the machine's size with `pc` at either end of its range. -/
theorem test_witness_restore :
    ∀ p ∈ ([-2 ^ 63, 2 ^ 63] : List Int),
      ({ addrLimit := 8, memorySnapshot := [(7, 1)], programCounter := p, relativeBase := 0, doneFlag := true } :
        Checkpoint).wf 8 = true := by decide

theorem test_witness_placed : (State.reset).mem.wf ∧ (State.reset).inSpace (State.reset).pc ∧
    decodeTableWord 64 1101 = some (.add .immediate .immediate .position) := by decide

/-- Two machines, the first of which takes a step, and a machine that feeds itself. -/
theorem test_witness_machines :
    (∃ sys, System.stepAt [member (machine [99]), member (idle [] [])] 0 = .next sys) ∧
    ([member (machine [99]), member (idle [] [])] : System)[0]? = some (member (machine [99])) ∧
    ([member (machine [99]), member (idle [] [])] : System)[1]? = some (member (idle [] [])) ∧ (0 : Nat) ≠ 1 ∧
    ([member (machine [99]), member (idle [] []), member (idle [] [])] : System)[2]? = some (member (idle [] [])) :=
  ⟨⟨_, rfl⟩, rfl, rfl, by decide, rfl⟩

/-- A machine whose host has dealt with one run and not with the run after it; and one with every reply dealt with. -/
theorem test_witness_fresh :
    ({ machine := { idle [] [] with replies := [.ran .halted [4], .ran .halted [5]] }, taken := 1 } : Member).machine.replies
      = [.ran .halted [4]] ++ [.ran .halted [5]] ∧
    ({ machine := { idle [] [] with replies := [.ran .halted [4], .ran .halted [5]] }, taken := 1 } : Member).taken
      = ([.ran .halted [4]] : List HostReply).length ∧
    (member (idle [] [])).taken = (member (idle [] [])).machine.replies.length ∧
    (∀ o new, HostReply.drained [7] ≠ .ran o new) :=
  ⟨rfl, rfl, rfl, fun _ _ h => nomatch h⟩

/-- Pushes that have been decided on, with a run after them. -/
theorem test_witness_pushes : (idle [3, 0] [.pushInput 1, .pushInput 2, .run .batch none]).run = none ∧
    (idle [3, 0] [.pushInput 1, .pushInput 2, .run .batch none]).calls
      = ([1, 2] : List Word).map HostCall.pushInput ++ [.run .batch none] := by decide

/-- A Blocked machine the host has no call for. -/
def stuck : State := { idle [3, 0] [] with status := .blocked }

/-- A deadlocked system of a machine that meets the invariant. -/
theorem test_witness_deadlocked : System.deadlocked [member stuck] = true ∧ member stuck ∈ [member stuck] ∧ stuck.Inv :=
  ⟨by decide, by simp,
   { limitLegal := by decide, memCanonical := by decide, memBelow := by decide, imageFits := by decide,
     pcInRange := by decide, faultIffFaulted := by decide, faultFits := by intro f h; exact (nomatch h),
     blockedWaits := fun _ => ⟨by decide, .position, by decide, by decide⟩,
     markInLog := by intro r h; exact (nomatch h), withinBudget := by intro r b h; exact (nomatch h) }⟩

/-- Row JMP8's endless loop, no run in progress. -/
def loopImage : State := State.fresh Config.standard [1105, 1, 0]

/-- The same in a run without a budget, after `k` rounds of the loop. -/
def looping (k : Nat) : State := { loopImage with run := some { openRun with executed := k } }

theorem test_loop_comes_back (k : Nat) : step (looping k) = .next (looping (k + 1)) := by
  have hf : (looping k).fetch = .ok 1105 := by
    rw [State.fetch_eq]
    exact if_pos (by decide : loopImage.inSpace loopImage.pc) |>.trans
      (congrArg _ (by decide : loopImage.cell loopImage.pc = 1105))
  have hd : decode 1105 = .ok (.jumpIfTrue .immediate .immediate) := by decide
  have hturn : (looping k).turn = .execute (.jumpIfTrue .immediate .immediate) := by
    change (looping k).fetchDecode = _
    unfold State.fetchDecode
    simp only [hf, hd]
  have h1 : (looping k).readable 1 .immediate := (by decide : loopImage.readable 1 .immediate)
  have h2 : (looping k).readable 2 .immediate := (by decide : loopImage.readable 2 .immediate)
  have hv : (looping k).value 1 .immediate = 1 := (by decide : loopImage.value 1 .immediate = 1)
  have hv' : (looping k).value 2 .immediate = 0 := (by decide : loopImage.value 2 .immediate = 0)
  unfold step
  rw [hturn]
  simp only
  rw [exec_jumpIfTrue, State.jumpWhen_eq, if_pos h1, if_pos h2, hv, hv']
  rfl

/-- A run that never returns: row JMP8 without a budget. -/
theorem test_witness_neverReturns : (looping 0).neverReturns := by
  have key : ∀ n k, State.after n (looping k) = looping (k + n) := by
    intro n
    induction n with
    | zero => intro k; rfl
    | succ n ih => intro k; simp only [State.after, test_loop_comes_back, ih]; congr 1; omega
  intro n
  rw [key]
  exact nofun

/-- Rows of what restore refuses, at each bound of each condition. -/
theorem test_witness_restore_refused :
    ((8 : Nat) ≠ (idle [7] []).cfg.addrLimit) ∧ ¬ Memory.wf [(1, 0)] ∧ ¬ Memory.wf [(2, 5), (1, 5)] ∧
    ¬ Memory.below [(2 ^ 63, 5)] (idle [7] []).cfg.addrLimit ∧ (-2 ^ 63 - 1 : Int) < -2 ^ 63 ∧ (2 ^ 63 : Int) < 2 ^ 63 + 1 ∧
    (idle [7] [.restore (idle [7] []).checkpoint]).run = none := by decide

/-- An input that stores at pc + 2, whose word is fetched next. -/
theorem test_witness_inputThenFetch :
    ({ machine [3, 2] with inq := [99] } : State).mem.wf ∧
    ({ machine [3, 2] with inq := [99] } : State).dst 1 .position = .ok 2 ∧
    ({ machine [3, 2] with inq := [99] } : State).pc + 2 = ((2 : Nat) : Int) ∧
    after1 (fun t => t.nextInstr) ({ machine [3, 2] with inq := [99] }) = some (some .halt) := by decide

/-- Steps that write the pc, the fault record and the run. -/
theorem test_witness_pc_fault_run :
    after1 State.pc (machine [1105, 1, 7]) = some 7 ∧ after1 State.pc (machine [104, 1]) = some 2 ∧
    after1 State.pc ({ idle [99] [.reset] with pc := 5 }) = some 0 ∧
    after1 (fun t => t.fault.isSome) (machine [0]) = some true ∧
    after1 (fun t => t.fault.isSome) ({ idle [99] [.reset] with
        fault := some { kind := .unknownOpcode, code := 1, atPc := 0, word := none, param := none } }) = some false ∧
    after1 State.run (machine [104, 1]) ≠ some (machine [104, 1]).run := by decide

end Sys2Proof.Tests
end

/-! # The image and the output log (10_state.md R25, R27)

The image is written by `create` and read by `reset`, and nothing else looks at it: every other operation commutes with
giving the machine another image. The log is written by `output`, `drain_output` and `create`. -/

namespace Sys2Proof.Machine

/-! ## The host's calls -/

/-- Between runs the next step makes the oldest call still to come. -/
theorem State.nextCall_of_calls {s : State} {c : HostCall} {rest : List HostCall} (hr : s.run = none)
    (hc : s.calls = c :: rest) : s.nextCall = some c := by
  simp [State.nextCall, hr, hc]

@[simp] theorem State.restore_image (s : State) (c : Checkpoint) : (s.restore c).image = s.image := by
  unfold State.restore; split <;> rfl

@[simp] theorem State.restore_out (s : State) (c : Checkpoint) : (s.restore c).out = s.out := by
  unfold State.restore; split <;> rfl

/-- Of the host's calls only `create` writes the image. -/
theorem State.hostCall_image (s : State) {c : HostCall} (hc : ∀ image, c ≠ .create image) :
    (s.hostCall c).image = s.image := by
  cases c with
  | create image => exact absurd rfl (hc image)
  | restore c => exact s.restore_image c
  | pushInput _ | run _ _ | drainOutput | reset | save | inspect _ => rfl

/-- Of the host's calls only `drain_output` and `create` write the log. -/
theorem State.hostCall_out (s : State) {c : HostCall} (hd : c ≠ .drainOutput) (hc : ∀ image, c ≠ .create image) :
    (s.hostCall c).out = s.out := by
  cases c with
  | create image => exact absurd rfl (hc image)
  | drainOutput => exact absurd rfl hd
  | restore c => exact s.restore_out c
  | pushInput _ | run _ _ | reset | save | inspect _ => rfl

/-! ## A machine given another image -/

/-- `s` with another image in the place of its own. -/
def State.withImage (s : State) (image : List Word) : State := { s with image := image }

section
variable (s : State) (image : List Word)

theorem State.endRun_withImage (o : RunOutcome) : (s.withImage image).endRun o = (s.endRun o).withImage image := by
  simp only [State.endRun_eq]; rfl

theorem State.raise_withImage (t : Trap) : (s.withImage image).raise t = (s.raise t).withImage image :=
  State.endRun_withImage { s with status := .faulted, fault := some (s.faultInfo t) } image _

/-- Operands are resolved alike under any image (40_operands.md R115). -/
theorem State.resolveRRW_withImage (a b c : Mode) : (s.withImage image).resolveRRW a b c = s.resolveRRW a b c := rfl

theorem State.resolveRR_withImage (a b : Mode) : (s.withImage image).resolveRR a b = s.resolveRR a b := rfl

theorem State.storeBinary_withImage (f : Word → Word → Word) (a b c : Mode) :
    (s.withImage image).storeBinary f a b c = (s.storeBinary f a b c).withImage image := by
  unfold State.storeBinary
  rw [State.resolveRRW_withImage]
  cases s.resolveRRW a b c with
  | error t => exact s.raise_withImage image t
  | ok operands => rfl

theorem State.jumpWhen_withImage (cond : Word → Bool) (a b : Mode) :
    (s.withImage image).jumpWhen cond a b = (s.jumpWhen cond a b).withImage image := by
  unfold State.jumpWhen
  rw [State.resolveRR_withImage]
  cases s.resolveRR a b with
  | error t => exact s.raise_withImage image t
  | ok operands => rfl

end

/-- The step that finds the queue empty looks at the run, and at the policy of the run, never at the image. -/
theorem State.inputEmpty_withImage {s t : State} (image : List Word) (h : s.inputEmpty = .next t) :
    (s.withImage image).inputEmpty = .next (t.withImage image) := by
  obtain ⟨cfg, _, mem, pc, rb, status, fault, inq, out, run, calls, replies⟩ := s
  cases run with
  | none => cases h
  | some r =>
    obtain ⟨policy, budget, executed, mark⟩ := r
    cases policy with
    | streaming => cases h; rfl
    | batch => cases h; rfl

/-- No instruction reads the image: executed under another image it does the same, and carries that image along. -/
theorem exec_withImage {i : Instr} {s t : State} (image : List Word) (h : exec i s = .next t) :
    exec i (s.withImage image) = .next (t.withImage image) := by
  cases i with
  | add a b c | multiply a b c | lessThan a b c | equals a b c =>
    cases h; exact congrArg _ (s.storeBinary_withImage image _ a b c)
  | jumpIfTrue a b | jumpIfFalse a b =>
    cases h; exact congrArg _ (s.jumpWhen_withImage image _ a b)
  | halt =>
    cases h; exact congrArg _ (State.endRun_withImage { s with status := .halted } image .halted)
  | output a =>
    rw [exec_output] at h
    by_cases ha : s.readable 1 a
    · rw [if_pos ha] at h
      cases h; exact (exec_output a _).trans (if_pos ha)
    · rw [if_neg ha] at h
      cases h; exact (exec_output a _).trans ((if_neg ha).trans (congrArg _ (s.raise_withImage image _)))
  | adjustBase a =>
    rw [exec_adjustBase] at h
    by_cases ha : s.readable 1 a
    · rw [if_pos ha] at h
      cases h; exact (exec_adjustBase a _).trans (if_pos ha)
    · rw [if_neg ha] at h
      cases h; exact (exec_adjustBase a _).trans ((if_neg ha).trans (congrArg _ (s.raise_withImage image _)))
  | input c =>
    rw [exec_input] at h
    by_cases hc : s.writable 1 c
    · rw [if_pos hc] at h
      refine (exec_input c _).trans ((if_pos hc).trans ?_)
      rw [show (s.withImage image).inq = s.inq from rfl]
      cases hq : s.inq with
      | nil => rw [hq] at h; exact State.inputEmpty_withImage image h
      | cons x rest => rw [hq] at h; cases h; rfl
    · rw [if_neg hc] at h
      cases h; exact (exec_input c _).trans ((if_neg hc).trans (congrArg _ (s.raise_withImage image _)))

/-- Of the host's calls only `reset` reads the image, and `create` replaces it. -/
theorem State.hostCall_withImage (s : State) (image : List Word) {c : HostCall} (hr : c ≠ .reset)
    (hc : ∀ im, c ≠ .create im) : (s.withImage image).hostCall c = (s.hostCall c).withImage image := by
  cases c with
  | create im => exact absurd rfl (hc im)
  | reset => exact absurd rfl hr
  | restore c =>
    simp only [State.hostCall, State.restore]
    rw [show (s.withImage image).cfg = s.cfg from rfl]
    split <;> rfl
  | inspect what => cases what <;> rfl
  | pushInput _ | run _ _ | drainOutput | save => rfl

/-! ## What is written to the image -/

/-- A legal image holds members of I64 only (48_host_operations.md R200), so no value of it is wrapped. -/
theorem State.create_image {s : State} {image : List Int} (h : imageOk s.cfg image = true) :
    (s.create image).image.map BitVec.toInt = image := by
  have hrange : ∀ v ∈ image, isI64 v = true := by
    rw [imageOk, Bool.and_eq_true] at h; exact List.all_eq_true.1 h.2
  have hexact : ∀ v ∈ image, (BitVec.ofInt 64 v).toInt = v := by
    intro v hv
    have := hrange v hv
    simp only [isI64, Bool.and_eq_true, decide_eq_true_eq] at this
    exact BitVec.toInt_ofInt_eq_self (by decide) (by omega) (by omega)
  have himage : (s.create image).image = image.map (BitVec.ofInt 64) := by rw [State.create, if_pos h]; rfl
  rw [himage, List.map_map]
  exact (List.map_congr_left hexact).trans (List.map_id image)

/-- No instruction writes the image. -/
theorem exec_image {i : Instr} {s t : State} (h : exec i s = .next t) : t.image = s.image := by
  cases exec_cases h <;> simp

/-- No step but `create` writes the image. -/
theorem step_image {s t : State} (h : step s = .next t) (hc : ∀ image, s.nextCall ≠ some (.create image)) :
    t.image = s.image := by
  cases step_cases h with
  | idle => rfl
  | called c rest hr hcalls =>
    rw [State.nextCall_of_calls hr hcalls] at hc
    exact State.hostCall_image _ fun image hi => hc image (hi ▸ rfl)
  | executed r i _ _ _ he => exact exec_image he
  | wasFaulted | wasHalted | exhausted | badWord => simp

/-- Settles O43 (10_state.md R25): `exec` and the calls but `reset` and `create` commute with
giving the machine another image. -/
theorem imageIsImmutable : Obligations.ImageIsImmutable := by
  refine ⟨fun s image => State.create_image, fun i s t image h => ⟨exec_image h, exec_withImage image h⟩,
    fun s t => step_image, fun s c image => s.hostCall_withImage image, fun s a => ?_⟩
  rw [State.hostReset_mem, Memory.read_ofImage, if_pos a.zero_le, a.sub_zero]

/-! ## What is written to the log -/

/-- An instruction leaves the log as it is, or is an `output` that resolves and appends its value. -/
theorem exec_out {i : Instr} {s t : State} (h : exec i s = .next t) :
    t.out = s.out ∨ ∃ a, i = .output a ∧ s.readable 1 a ∧ t.out = s.out ++ [s.value 1 a] := by
  cases exec_cases h with
  | appended a ha => exact .inr ⟨a, rfl, ha, rfl⟩
  | raised | stored | consumed | blocked | jumped | fellThrough | moved | halted => exact .inl (by simp)

/-- A step keeps every entry of the log, unless the host drains it or creates a new machine. -/
theorem step_out_prefix {s t : State} (h : step s = .next t) (hd : s.nextCall ≠ some .drainOutput)
    (hc : ∀ image, s.nextCall ≠ some (.create image)) : s.out <+: t.out := by
  cases step_cases h with
  | idle => exact List.prefix_rfl
  | called c rest hr hcalls =>
    rw [State.nextCall_of_calls hr hcalls] at hd hc
    rw [State.hostCall_out _ (fun he => hd (he ▸ rfl)) fun image hi => hc image (hi ▸ rfl)]
  | executed r i _ _ _ he =>
    rcases exec_out he with hsame | ⟨a, -, -, happ⟩
    · rw [hsame]
    · rw [happ]; exact List.prefix_append _ _
  | wasFaulted | wasHalted | exhausted | badWord => simp

/-- `output` retires or faults (42_io.md R141). -/
theorem exec_output_status {a : Mode} {s t : State} (h : exec (.output a) s = .next t) :
    t.status = s.status ∨ t.status = .faulted := by
  rw [exec_output] at h
  split_ifs at h with ha
  · cases h; exact .inl rfl
  · cases h; exact .inr (State.raise_status _ _)

/-- Settles O44 (10_state.md R27), from what `exec`, `step` and each host call do to the log. -/
theorem outputLogIsAppendOnly : Obligations.OutputLogIsAppendOnly :=
  ⟨fun _ _ _ => exec_out, fun _ _ => step_out_prefix,
    fun s c => ⟨s.hostReset_out, rfl, s.restore_out c, s.drainOutput_out⟩,
    fun _ _ _ => exec_output_status,
    fun a s ha => ⟨_, (exec_output a s).trans (if_pos ha), rfl⟩,
    fun _ _ => rfl⟩

end Sys2Proof.Machine

/-! # Reading and writing memory (20_memory.md R54, R55)

One address check stands before every access. Its three answers, below the address space, beyond it and inside it, are
what a read and the resolution of a destination are made of. -/

namespace Sys2Proof.Machine

/-! ## The three answers of the address check -/

/-- Below 0 the trap is NegativeAddress, whatever ADDR_LIMIT is. -/
theorem addressTrap_of_neg {a : Int} (ha : a < 0) (param : Option Nat) :
    addressTrap a param = { kind := .negativeAddress, param := param } := if_pos ha

theorem addressTrap_of_nonneg {a : Int} (ha : 0 ≤ a) (param : Option Nat) :
    addressTrap a param = { kind := .capacityExceeded, param := param } := if_neg (Int.not_lt.2 ha)

theorem State.not_inSpace_of_neg (s : State) {a : Int} (ha : a < 0) : ¬ s.inSpace a :=
  fun h => Int.not_le.2 ha h.1

theorem State.not_inSpace_of_limit_le {s : State} {a : Int} (ha : (s.cfg.addrLimit : Int) ≤ a) : ¬ s.inSpace a :=
  fun h => Int.not_lt.2 ha h.2

theorem State.checkAddr_of_inSpace {s : State} {a : Int} (h : s.inSpace a) (param : Option Nat) :
    s.checkAddr a param = .ok a.toNat := by
  rw [State.checkAddr_eq, if_pos h]

theorem State.checkAddr_of_not_inSpace {s : State} {a : Int} (h : ¬ s.inSpace a) (param : Option Nat) :
    s.checkAddr a param = .error (addressTrap a param) := by
  rw [State.checkAddr_eq, if_neg h]

/-! ## Reading -/

theorem State.memRead_of_inSpace {s : State} {a : Int} (h : s.inSpace a) (param : Option Nat) :
    s.memRead a param = .ok (s.mem.read a.toNat) := by
  rw [State.memRead_eq, if_pos h]; rfl

theorem State.memRead_of_not_inSpace {s : State} {a : Int} (h : ¬ s.inSpace a) (param : Option Nat) :
    s.memRead a param = .error (addressTrap a param) := by
  rw [State.memRead_eq, if_neg h]

/-- Settles O9 (20_memory.md R54): a read inside the address space gives the cell, and outside it the trap that the sign
of the address selects. -/
theorem memReadChecksThenReads : Obligations.MemReadChecksThenReads := by
  intro s a param
  refine ⟨fun hneg => ?below, fun h0 hlim => ?beyond, fun h0 hlt => State.memRead_of_inSpace ⟨h0, hlt⟩ param,
    fun h0 hlt hnew => ?unwritten⟩
  case below => rw [State.memRead_of_not_inSpace (s.not_inSpace_of_neg hneg), addressTrap_of_neg hneg]
  case beyond => rw [State.memRead_of_not_inSpace (State.not_inSpace_of_limit_le hlim), addressTrap_of_nonneg h0]
  case unwritten => rw [State.memRead_of_inSpace ⟨h0, hlt⟩, Memory.read_unlisted hnew]

/-! ## Writing -/

/-- A destination that resolves is an address of the machine. -/
theorem State.dst_lt {s : State} {p : Nat} {m : Mode} {d : Nat} (h : s.dst p m = .ok d) : d < s.cfg.addrLimit := by
  rw [State.dst_eq] at h
  split_ifs at h with hw
  obtain rfl := Except.ok.inj h
  exact State.target_lt hw

/-- Settles O10 (20_memory.md R55): the address is checked when the destination is resolved, and `memWrite` is a write to
the memory array and nothing else. -/
theorem memWriteStoresOneCell : Obligations.MemWriteStoresOneCell := by
  intro s param p m v
  refine ⟨fun a hneg => ?below, fun a h0 hlim => ?beyond, fun a h0 hlt => State.checkAddr_of_inSpace ⟨h0, hlt⟩ param,
    fun d => State.dst_lt, fun hwf d => ⟨?same, fun b hb => ?other, rfl⟩⟩
  case below => rw [State.checkAddr_of_not_inSpace (s.not_inSpace_of_neg hneg), addressTrap_of_neg hneg]
  case beyond => rw [State.checkAddr_of_not_inSpace (State.not_inSpace_of_limit_le hlim), addressTrap_of_nonneg h0]
  case same => exact Memory.read_write_same hwf d v
  case other => exact Memory.read_write_other s.mem hb v

end Sys2Proof.Machine

/-! # Words that are no instruction (30_encoding.md R88, R89)

On a word that is not negative the decoder is `decodeNat`: an opcode outside the map is refused there, and a write
parameter is accepted only in a writable mode. -/

namespace Sys2Proof

/-- Only a negative word is refused before its digits are read. -/
theorem decode_of_nonneg {w : Word} (hw : 0 ≤ w.toInt) : decode w = decodeNat w.toNat := if_neg (Int.not_lt.2 hw)

/-! ## Illegal opcodes -/

/-- The two low digits of a word of no opcode: 00 and 10 .. 98. -/
theorem decodeNat_of_illegalOpcode {n : Nat} (hn : n % 100 = 0 ∨ (10 ≤ n % 100 ∧ n % 100 ≤ 98)) :
    decodeNat n = .error .unknownOpcode := by
  unfold decodeNat
  split
  case h_11 => rfl
  all_goals omega

theorem decode_of_illegalOpcode {w : Word} (hw : 0 ≤ w.toInt)
    (hn : w.toNat % 100 = 0 ∨ (10 ≤ w.toNat % 100 ∧ w.toNat % 100 ≤ 98)) : decode w = .error .unknownOpcode :=
  (decode_of_nonneg hw).trans (decodeNat_of_illegalOpcode hn)

/-- What an unwritten cell holds is no instruction. -/
theorem decode_zero : decode 0 = .error .unknownOpcode := decode_of_illegalOpcode (by decide) (.inl (by decide))

/-! ## Immediate mode on a write parameter -/

/-- The digit of a mode that can be written is not 1. -/
theorem Mode.digit_ne_one_of_writable {m : Mode} (hm : m.writable = true) : m.digit ≠ 1 := by
  cases m with
  | position | relative => decide
  | immediate => cases hm

theorem decodeW_of_immediateWrite (mk : Mode → Instr) {n : Nat} (h2 : digit n 2 = 1) :
    decodeW mk n = .error (.illegalWriteMode 1) := by
  rcases decodeW_eq mk n with ⟨a, ha, hwr, -⟩ | ⟨hbad, -⟩ | ⟨-, heq⟩
  · exact absurd (ha.symm.trans h2) (Mode.digit_ne_one_of_writable hwr)
  · omega
  · exact heq

theorem decodeRRW_of_immediateWrite (mk : Mode → Mode → Mode → Instr) {n : Nat} (h2 : digit n 2 < 3)
    (h3 : digit n 3 < 3) (h4 : digit n 4 = 1) : decodeRRW mk n = .error (.illegalWriteMode 3) := by
  rcases decodeRRW_eq mk n with ⟨a, b, c, -, -, hc, hwr, -⟩ | ⟨hbad, -⟩ | ⟨-, hbad, -⟩ | ⟨-, -, hbad, -⟩ |
    ⟨-, -, -, heq⟩
  · exact absurd (hc.symm.trans h4) (Mode.digit_ne_one_of_writable hwr)
  · omega
  · omega
  · omega
  · exact heq

/-- The opcodes of format RRW are 1, 2, 7 and 8. -/
theorem decodeNat_eq_decodeRRW {n : Nat} (hn : n % 100 = 1 ∨ n % 100 = 2 ∨ n % 100 = 7 ∨ n % 100 = 8) :
    ∃ mk, decodeNat n = decodeRRW mk n := by
  rcases hn with h | h | h | h
  · exact ⟨.add, by simp only [decodeNat, h]⟩
  · exact ⟨.multiply, by simp only [decodeNat, h]⟩
  · exact ⟨.lessThan, by simp only [decodeNat, h]⟩
  · exact ⟨.equals, by simp only [decodeNat, h]⟩

/-! ## What the decoder gives is well-formed -/

theorem decodeR_wf {mk : Mode → Instr} {n : Nat} {i : Instr} (hmk : ∀ a, (mk a).wf = true)
    (h : decodeR mk n = .ok i) : i.wf = true := by
  rcases decodeR_eq mk n with ⟨a, -, heq⟩ | ⟨-, heq⟩ <;> cases heq.symm.trans h
  exact hmk a

theorem decodeW_wf {mk : Mode → Instr} {n : Nat} {i : Instr} (hmk : ∀ a, (mk a).wf = a.writable)
    (h : decodeW mk n = .ok i) : i.wf = true := by
  rcases decodeW_eq mk n with ⟨a, -, hwr, heq⟩ | ⟨-, heq⟩ | ⟨-, heq⟩ <;> cases heq.symm.trans h
  exact (hmk a).trans hwr

theorem decodeRR_wf {mk : Mode → Mode → Instr} {n : Nat} {i : Instr} (hmk : ∀ a b, (mk a b).wf = true)
    (h : decodeRR mk n = .ok i) : i.wf = true := by
  rcases decodeRR_eq mk n with ⟨a, b, -, -, heq⟩ | ⟨-, heq⟩ | ⟨-, -, heq⟩ <;> cases heq.symm.trans h
  exact hmk a b

theorem decodeRRW_wf {mk : Mode → Mode → Mode → Instr} {n : Nat} {i : Instr}
    (hmk : ∀ a b c, (mk a b c).wf = c.writable) (h : decodeRRW mk n = .ok i) : i.wf = true := by
  rcases decodeRRW_eq mk n with ⟨a, b, c, -, -, -, hwr, heq⟩ | ⟨-, heq⟩ | ⟨-, -, heq⟩ | ⟨-, -, -, heq⟩ |
    ⟨-, -, -, heq⟩ <;> cases heq.symm.trans h
  exact (hmk a b c).trans hwr

theorem decodeNat_wf {n : Nat} {i : Instr} (h : decodeNat n = .ok i) : i.wf = true := by
  unfold decodeNat at h
  split at h
  case h_1 | h_2 | h_7 | h_8 => exact decodeRRW_wf (fun _ _ _ => rfl) h
  case h_3 => exact decodeW_wf (fun _ => rfl) h
  case h_4 | h_9 => exact decodeR_wf (fun _ => rfl) h
  case h_5 | h_6 => exact decodeRR_wf (fun _ _ => rfl) h
  case h_10 => cases h; rfl
  case h_11 => cases h

/-- No word decodes to an instruction that writes in immediate mode. -/
theorem decode_wf {w : Word} {i : Instr} (h : decode w = .ok i) : i.wf = true := by
  unfold decode at h
  split at h
  · cases h
  · exact decodeNat_wf h

/-- Settles O6 (30_encoding.md R88): the format of the opcode refuses the mode digit, and what it accepts is
well-formed. -/
theorem immediateWriteIsRefused : Obligations.ImmediateWriteIsRefused := by
  refine ⟨fun w hw hop h2 h3 h4 => ?threeParameters, fun w hw hop h2 => ?input, fun _ _ => decode_wf,
    by decide, by decide, by decide⟩
  case threeParameters =>
    obtain ⟨mk, heq⟩ := decodeNat_eq_decodeRRW hop
    rw [decode_of_nonneg hw, heq, decodeRRW_of_immediateWrite mk h2 h3 h4]
  case input =>
    have heq : decodeNat w.toNat = decodeW .input w.toNat := by simp only [decodeNat, hop]
    rw [decode_of_nonneg hw, heq, decodeW_of_immediateWrite _ h2]

end Sys2Proof

namespace Sys2Proof.Machine

/-- A word refused for its opcode is reported and not skipped: the fault names no parameter. -/
theorem step_of_unknownOpcode {s : State} {r : Run} (hr : s.coreSteps r) (hp : s.inSpace s.pc)
    (he : decode (s.mem.read s.pc.toNat) = .error .unknownOpcode) :
    step s = .next (s.raise { kind := .unknownOpcode, param := none }) := step_of_decode_error hr hp he

/-- Settles O5 (30_encoding.md R89): the word does not decode, and the step that fetches such a word takes the fault; an
unwritten cell reads 0, which is such a word. -/
theorem illegalOpcodeIsAFault : Obligations.IllegalOpcodeIsAFault := by
  refine ⟨fun w hw hop => ?illegal, decode_zero, State.raise_status, fun s r hr hp hnew => ?unwritten⟩
  case illegal =>
    have hd := decode_of_illegalOpcode hw hop
    exact ⟨hd, fun s r hr hp hread => step_of_unknownOpcode hr hp (hread ▸ hd)⟩
  case unwritten =>
    have hread : s.mem.read s.pc.toNat = 0 := Memory.read_unlisted hnew
    exact step_of_unknownOpcode hr hp (hread ▸ decode_zero)

end Sys2Proof.Machine

/-! # The value of a read operand (40_operands.md R112) -/

namespace Sys2Proof.Machine

theorem State.val_of_readable {s : State} {p : Nat} {m : Mode} (h : s.readable p m) : s.val p m = .ok (s.value p m) := by
  rw [State.val_eq, if_pos h]

/-- Settles O12 (40_operands.md R112): in each mode the premises say that the parameter is readable, and its value is the
literal or the cell at `operandAddr`. -/
theorem readOperandFollowsItsMode : Obligations.ReadOperandFollowsItsMode := by
  rintro s p raw hp rfl
  refine ⟨?immediate, fun ha => ?position, fun ha => ?relative⟩
  case immediate => exact State.val_of_readable ⟨hp, .inl rfl⟩
  case position => exact State.val_of_readable ⟨hp, .inr ha⟩
  case relative => exact State.val_of_readable ⟨hp, .inr ha⟩

end Sys2Proof.Machine

/-! # The dispatch loop (47_dispatch_loop.md R180 to R188)

First what the next step is in each kind of state: a host call, the return of a run, or the instruction at `pc`. Then one
inversion lemma for a step of a run: the run goes on, or it returns with an outcome that means what R185 says. -/

namespace Sys2Proof.Machine

/-! ## Fetching the instruction word -/

theorem State.fetch_of_inSpace {s : State} (h : s.inSpace s.pc) : s.fetch = .ok (s.mem.read s.pc.toNat) :=
  State.memRead_of_inSpace h none

theorem State.fetch_of_not_inSpace {s : State} (h : ¬ s.inSpace s.pc) : s.fetch = .error (addressTrap s.pc none) :=
  State.memRead_of_not_inSpace h none

/-- A store to the cell at `pc` is seen by the fetch. -/
theorem State.fetch_memWrite_pc {s : State} (h : s.inSpace s.pc) (hwf : s.mem.wf) (v : Word) :
    (s.memWrite s.pc.toNat v).fetch = .ok v := by
  have hread := Memory.read_write_same hwf s.pc.toNat v
  exact (State.fetch_of_inSpace (s := s.memWrite s.pc.toNat v) h).trans (congrArg _ hread)

/-- The record of a fault raised outside the address space holds no word. -/
theorem State.faultInfo_of_not_inSpace {s : State} (h : ¬ s.inSpace s.pc) (t : Trap) :
    s.faultInfo t = { kind := t.kind, code := t.kind.code, atPc := s.pc, word := none, param := t.param } := by
  rw [State.faultInfo, State.fetchedWord_eq, if_neg h]

/-! ## The turn of the core -/

/-- Fetching and decoding lead to the instruction at `pc`, or to no instruction. -/
theorem State.fetchDecode_eq_execute {s : State} {i : Instr} : s.fetchDecode = .execute i ↔ s.nextInstr = some i := by
  unfold State.fetchDecode State.nextInstr
  cases s.fetch with
  | error t => simp
  | ok w => cases hd : decode w <;> simp [hd]

/-- While the core steps, its turn is to fetch and decode. -/
theorem State.turn_of_coreSteps {s : State} {r : Run} (h : s.coreSteps r) : s.turn = s.fetchDecode := by
  obtain ⟨hr, hb, hs | hs⟩ := h <;> simp [State.turn, hr, State.loopTurn, hs, hb]

/-- The next step executes an instruction exactly when the core steps and that instruction stands at `pc`. -/
theorem State.turn_eq_execute_iff {s : State} {i : Instr} :
    s.turn = .execute i ↔ (∃ r, s.coreSteps r) ∧ s.nextInstr = some i := by
  refine ⟨fun h => ?mp, fun ⟨⟨r, hr⟩, hi⟩ => (State.turn_of_coreSteps hr).trans (State.fetchDecode_eq_execute.2 hi)⟩
  case mp =>
    have hsteps : ∃ r, s.coreSteps r := by
      unfold State.turn at h
      cases hr : s.run with
      | none => cases hc : s.calls <;> simp [hr, hc] at h
      | some r =>
        simp only [hr] at h
        cases hb : r.spent with
        | true => cases hs : s.status <;> simp [State.loopTurn, hs, hb] at h
        | false =>
          refine ⟨r, hr, hb, ?_⟩
          cases hs : s.status <;> simp [State.loopTurn, hs] at h ⊢
    obtain ⟨r, hr⟩ := hsteps
    exact ⟨⟨r, hr⟩, State.fetchDecode_eq_execute.1 ((State.turn_of_coreSteps hr).symm.trans h)⟩

/-- Blocked or Running, the core executes the same instruction. -/
theorem State.turn_execute_of_blocked {s : State} (hs : s.status = .blocked) (i : Instr) :
    s.turn = .execute i ↔ State.turn { s with status := .running } = .execute i := by
  have hnext : State.nextInstr { s with status := .running } = s.nextInstr := rfl
  simp [State.turn_eq_execute_iff, hnext, State.coreSteps, hs]

/-! ## What the next step does -/

/-- A run in progress returns. -/
theorem State.endRun_of_run {s : State} {r : Run} (hr : s.run = some r) (o : RunOutcome) :
    s.endRun o = s.returned r o := by
  simp [State.endRun, hr, State.returned]

/-- Between runs the host makes its oldest call. -/
theorem step_of_call {s : State} {c : HostCall} {rest : List HostCall} (hr : s.run = none)
    (hc : s.calls = c :: rest) : step s = .next ({ s with calls := rest }.hostCall c) := by
  simp [step, State.turn, hr, hc]

/-- In a run a Halted machine returns before the budget is looked at. -/
theorem step_of_halted {s : State} {r : Run} (hr : s.run = some r) (hs : s.status = .halted) :
    step s = .next (s.returned r .halted) := by
  simp [step, State.turn, hr, State.loopTurn, hs, State.endRun_of_run hr]

/-- A step whose fetch faults takes the fault, and the record names no word. -/
theorem step_of_not_inSpace {s : State} {r : Run} {t : Trap} (hr : s.coreSteps r) (hp : ¬ s.inSpace s.pc)
    (ht : addressTrap s.pc none = t) :
    step s = .next (s.raise t) ∧ (s.raise t).fault =
      some { kind := t.kind, code := t.kind.code, atPc := s.pc, word := none, param := t.param } := by
  refine ⟨?_, (s.raise_fault t).trans (congrArg some (State.faultInfo_of_not_inSpace hp t))⟩
  simp [step, State.turn_of_coreSteps hr, State.fetchDecode, State.fetch_of_not_inSpace hp, ht]

/-- While the core steps, a step is the execution of the instruction at `pc`. -/
theorem step_of_nextInstr {s : State} {r : Run} {i : Instr} (hr : s.coreSteps r) (hi : s.nextInstr = some i) :
    step s = exec i s := by
  rw [step, State.turn_eq_execute_iff.2 ⟨⟨r, hr⟩, hi⟩]

/-! ## `input` whose destination resolves (42_io.md R140) -/

theorem exec_input_of_cons {s : State} {m : Mode} {x : Word} {rest : List Word} (hw : s.writable 1 m)
    (hq : s.inq = x :: rest) :
    exec (.input m) s = .next (({ s with inq := rest }.memWrite (s.target 1 m) x).retire (s.pc + 2)) := by
  rw [exec_input, if_pos hw, hq]

theorem exec_input_of_nil {s : State} {m : Mode} (hw : s.writable 1 m) (hq : s.inq = []) :
    exec (.input m) s = s.inputEmpty := by
  rw [exec_input, if_pos hw, hq]

theorem State.inputEmpty_of_streaming {s : State} {r : Run} (hr : s.run = some r) (hp : r.policy = .streaming) :
    s.inputEmpty = .next (State.returned { s with status := .blocked } r .blockedOnInput) := by
  simp [State.inputEmpty, hr, hp, State.endRun_of_run]

theorem State.inputEmpty_of_batch {s : State} {r : Run} (hr : s.run = some r) (hp : r.policy = .batch) :
    s.inputEmpty = .next (s.raise { kind := .inputExhausted, param := none }) := by
  simp [State.inputEmpty, hr, hp]

/-! ## A step of a run: it goes on, or it returns -/

/-- What the outcome `o` says of the step from `s` to `t` that ends the run `r` (47_dispatch_loop.md R185). -/
def RunOutcome.Means (o : RunOutcome) (s : State) (r : Run) (t : State) : Prop :=
  match o with
  | .halted => t.status = .halted
  | .blockedOnInput => t.status = .blocked ∧ t.inq = [] ∧ r.policy = .streaming ∧ ∃ m, t.nextInstr = some (.input m)
  | .budgetExhausted => r.spent = true ∧ t.status = s.status
  | .fault f => t.status = .faulted ∧ t.fault = f

/-- In `t` the run `r` of `s` goes on: it has retired one more instruction, which may have put out a value. -/
structure State.RunGoesOn (s : State) (r : Run) (t : State) : Prop where
  run : t.run = some r.count
  replies : t.replies = s.replies
  out : t.out = s.out ∨ ∃ a v, s.nextInstr = some (.output a) ∧ t.out = s.out ++ [v]

/-- In `t` the run `r` of `s` has returned with the outcome `o`. -/
structure State.RunReturns (s : State) (r : Run) (o : RunOutcome) (t : State) : Prop where
  run : t.run = none
  out : t.out = s.out
  replies : t.replies = s.replies ++ [.ran o (t.out.drop r.mark)]
  means : o.Means s r t

/-- Returning from a run leaves the instruction at `pc`. -/
@[simp] theorem State.endRun_nextInstr (s : State) (o : RunOutcome) : (s.endRun o).nextInstr = s.nextInstr := by
  rw [State.endRun_eq]; rfl

theorem State.runReturns_endRun {s u : State} {r : Run} {o : RunOutcome} (hr : s.run = some r) (hrun : u.run = s.run)
    (hout : u.out = s.out) (hrep : u.replies = s.replies) (hm : o.Means s r (u.endRun o)) :
    s.RunReturns r o (u.endRun o) :=
  ⟨u.endRun_run o, (u.endRun_out o).trans hout, by simp [hrun, hr, hrep], hm⟩

theorem State.runReturns_raise {s : State} {r : Run} (hr : s.run = some r) (trap : Trap) :
    s.RunReturns r (.fault (some (s.faultInfo trap))) (s.raise trap) :=
  State.runReturns_endRun hr rfl rfl rfl ⟨s.raise_status trap, s.raise_fault trap⟩

/-- An instruction executed in a run retires, and the run goes on; or it faults, blocks or halts, and the run returns. -/
theorem exec_in_run {i : Instr} {s t : State} {r : Run} (hr : s.run = some r) (hi : s.nextInstr = some i)
    (h : exec i s = .next t) : s.RunGoesOn r t ∨ ∃ o, s.RunReturns r o t := by
  have hout : t.out = s.out ∨ ∃ a v, s.nextInstr = some (.output a) ∧ t.out = s.out ++ [v] :=
    (exec_out h).imp_right fun ⟨a, ha, _, happ⟩ => ⟨a, _, ha ▸ hi, happ⟩
  cases exec_cases h with
  | raised _ trap => exact .inr ⟨_, State.runReturns_raise hr trap⟩
  | halted => exact .inr ⟨.halted, State.runReturns_endRun hr rfl rfl rfl (State.endRun_status _ _)⟩
  | blocked c r' hc hq hr' hp =>
    obtain rfl : r = r' := Option.some.inj (hr.symm.trans hr')
    have hm : RunOutcome.blockedOnInput.Means s r ({ s with status := .blocked }.endRun .blockedOnInput) :=
      ⟨State.endRun_status _ _, (State.endRun_inq _ _).trans hq, hp, c, (State.endRun_nextInstr _ _).trans hi⟩
    exact .inr ⟨_, State.runReturns_endRun hr rfl rfl rfl hm⟩
  | stored | consumed | appended | jumped | fellThrough | moved => exact .inl ⟨by simp [hr], rfl, hout⟩

/-- A step of a run goes on with the run or returns from it. -/
theorem step_in_run {s t : State} {r : Run} (hr : s.run = some r) (h : step s = .next t) :
    s.RunGoesOn r t ∨ ∃ o, s.RunReturns r o t := by
  cases step_cases h with
  | idle hn | called _ _ hn => cases hr.symm.trans hn
  | wasFaulted _ _ hs =>
    exact .inr ⟨.fault s.fault, State.runReturns_endRun hr rfl rfl rfl
      ⟨(s.endRun_status _).trans hs, s.endRun_fault _⟩⟩
  | wasHalted _ _ hs =>
    exact .inr ⟨.halted, State.runReturns_endRun hr rfl rfl rfl ((s.endRun_status _).trans hs)⟩
  | exhausted r' hr' _ hb =>
    obtain rfl : r = r' := Option.some.inj (hr.symm.trans hr')
    exact .inr ⟨.budgetExhausted, State.runReturns_endRun hr rfl rfl rfl ⟨hb, s.endRun_status _⟩⟩
  | badWord _ trap => exact .inr ⟨_, State.runReturns_raise hr trap⟩
  | executed _ i _ _ hi he => exact exec_in_run hr hi he

/-! ## What a run returns -/

/-- Settles O41 (47_dispatch_loop.md R186): the call is `beginRun`, and every later step of the run goes on with it or
returns from it. -/
theorem runReturnsWhatItAppended : Obligations.RunReturnsWhatItAppended := by
  refine ⟨fun s p b rest => step_of_call, fun s t r hr h => ?step⟩
  case step =>
    rcases step_in_run hr h with hon | ⟨o, hret⟩
    · exact .inl ⟨hon.run, hon.replies, hon.out⟩
    · exact .inr ⟨hret.run, hret.out, o, hret.replies⟩

/-- Settles O42 (47_dispatch_loop.md R185): a step after which no run is in progress returned, with an outcome that means
what the rule says. -/
theorem runOutcomesMeanWhatTheySay : Obligations.RunOutcomesMeanWhatTheySay := by
  intro s t r hr h hnone
  rcases step_in_run hr h with hon | ⟨o, hret⟩
  · cases hnone.symm.trans hon.run
  · refine ⟨o, _, hret.replies, ?_, ?_, ?_, fun f => ?_⟩ <;> (rintro rfl; exact hret.means)

/-! ## The fetch, and runs on Halted and Blocked machines -/

/-- Settles O33 (47_dispatch_loop.md R181): outside the address space the fetch takes the trap that the sign of `pc`
selects, and inside it gives the cell as it stands. -/
theorem fetchFaultsNameNoWord : Obligations.FetchFaultsNameNoWord := by
  intro s r hr
  refine ⟨fun hneg => ?below, fun h0 hlim => ?beyond,
    fun hp => ⟨State.fetch_of_inSpace hp, State.fetch_memWrite_pc hp⟩, fun hp hnew => ?unwritten⟩
  case below => exact step_of_not_inSpace hr (s.not_inSpace_of_neg hneg) (addressTrap_of_neg hneg none)
  case beyond => exact step_of_not_inSpace hr (State.not_inSpace_of_limit_le hlim) (addressTrap_of_nonneg h0 none)
  case unwritten =>
    have hread : s.mem.read s.pc.toNat = 0 := Memory.read_unlisted hnew
    exact ⟨(State.fetch_of_inSpace hp).trans (congrArg _ hread), step_of_unknownOpcode hr hp (hread ▸ decode_zero)⟩

/-- Settles O38 (47_dispatch_loop.md R188): the call opens the run, and the next step returns from it with an empty log
since its mark. -/
theorem runOnAHaltedMachineReturnsAtOnce : Obligations.RunOnAHaltedMachineReturnsAtOnce := by
  intro s p b rest hr hc hs
  refine ⟨State.beginRun { s with calls := rest } p b, step_of_call hr hc, ?_⟩
  rw [step_of_halted (State.beginRun_run { s with calls := rest } p b) hs]
  simp [State.returned, State.beginRun, hr]

/-- Settles O40 (47_dispatch_loop.md R187): the turn does not tell Blocked from Running, and the `input` at `pc` looks at
the queue and the policy again. -/
theorem blockedMachineRetriesTheInput : Obligations.BlockedMachineRetriesTheInput := by
  refine ⟨fun s i hs => State.turn_execute_of_blocked hs i, fun s v hs => (s.pushInput_status v).trans (if_pos hs),
    fun s r m x rest hr hi hw hq => ?consumes, fun s r m hr hs hi hw hq => ⟨fun hp => ?streaming, fun hp => ?batch⟩⟩
  case consumes =>
    rw [step_of_nextInstr hr hi, exec_input_of_cons hw hq]
    simp [State.memWrite, State.retire, hr.1]
  case streaming =>
    have hsame : { s with status := .blocked } = s := by rw [← hs]
    rw [step_of_nextInstr hr hi, exec_input_of_nil hw hq, State.inputEmpty_of_streaming hr.1 hp, hsame]
  case batch => rw [step_of_nextInstr hr hi, exec_input_of_nil hw hq, State.inputEmpty_of_batch hr.1 hp]

end Sys2Proof.Machine

/-! # What the host was given (48_host_operations.md R204)

The replies only grow: a step adds at the end at most, so a checkpoint once given stays as it was. -/

namespace Sys2Proof.Machine

/-- No host call, `create` among them, takes back or changes a reply. -/
theorem State.hostCall_replies_prefix (s : State) (c : HostCall) : s.replies <+: (s.hostCall c).replies := by
  cases c with
  | pushInput _ | run _ _ | reset => exact List.prefix_rfl
  | drainOutput | save | inspect _ => exact List.prefix_append _ _
  | create _ | restore _ =>
    simp only [State.hostCall, State.create, State.restore]
    split <;> simp

/-- No instruction takes back or changes a reply; one that ends the run adds what the run returns. -/
theorem exec_replies_prefix {i : Instr} {s t : State} (h : exec i s = .next t) : s.replies <+: t.replies := by
  cases exec_cases h <;> simp

/-- No step takes back or changes a reply. -/
theorem step_replies_prefix {s t : State} (h : step s = .next t) : s.replies <+: t.replies := by
  cases step_cases h with
  | idle => exact List.prefix_rfl
  | called c rest => exact State.hostCall_replies_prefix { s with calls := rest } c
  | executed _ _ _ _ _ he => exact exec_replies_prefix he
  | wasFaulted | wasHalted | exhausted | badWord => simp

/-- Settles O56 (48_host_operations.md R204): what is given is `checkpoint` of the state, and no step changes a reply. -/
theorem saveReturnsACheckpoint : Obligations.SaveReturnsACheckpoint :=
  ⟨fun s _ hr hc => ⟨s.checkpoint, step_of_call hr hc, rfl, rfl, rfl, decide_eq_true_iff⟩,
    fun _ _ => step_replies_prefix⟩

end Sys2Proof.Machine

/-! # Which words decode to what (30_encoding.md R81, R87 to R91)

A word stands for an instruction when its two low digits are the opcode and the digits above them name the modes. The
digits read one by one (`ModesAt`) are the number that `encodeNat` assembles, and that is all `decodeNat` asks for. -/

namespace Sys2Proof

/-! ## Mode digits as a number -/

/-- The decimal digits of `n` from place `k` up name the modes `ms`, the first mode lowest. -/
def ModesAt (n : Nat) : Nat → List Mode → Prop
  | _, [] => True
  | k, m :: ms => digit n k = m.digit ∧ ModesAt n (k + 1) ms

@[simp] theorem modesAt_nil (n k : Nat) : ModesAt n k [] := trivial

theorem modesAt_cons {n k : Nat} {m : Mode} {ms : List Mode} :
    ModesAt n k (m :: ms) ↔ digit n k = m.digit ∧ ModesAt n (k + 1) ms := Iff.rfl

theorem modesNumber_lt (ms : List Mode) : modesNumber ms < 10 ^ ms.length := by
  induction ms with
  | nil => decide
  | cons m ms ih =>
    have := m.digit_le
    rw [modesNumber, List.length_cons, Nat.pow_succ]
    omega

/-- The digits name the modes exactly when, taken together, they are the modes' number. -/
theorem modesAt_iff {n k : Nat} {ms : List Mode} : ModesAt n k ms ↔ n / 10 ^ k % 10 ^ ms.length = modesNumber ms := by
  induction ms generalizing k with
  | nil => simp [modesNumber, Nat.mod_one]
  | cons m ms ih =>
    have hm := m.digit_le
    have hsplit : n / 10 ^ k % 10 ^ (m :: ms).length =
        n / 10 ^ k % 10 + 10 * (n / 10 ^ (k + 1) % 10 ^ ms.length) := by
      rw [List.length_cons, Nat.pow_succ', Nat.mod_mul, Nat.div_div_eq_div_mul, ← Nat.pow_succ]
    rw [modesAt_cons, ih, hsplit, modesNumber, digit]
    omega

/-- The digit of one of the modes. -/
theorem ModesAt.digit_eq {n k p : Nat} {ms : List Mode} {m : Mode} (h : ModesAt n k ms) (hp : ms[p]? = some m) :
    digit n (k + p) = m.digit := by
  induction ms generalizing k p with
  | nil => simp at hp
  | cons m' ms ih =>
    obtain ⟨hd, hrest⟩ := modesAt_cons.1 h
    cases p with
    | zero => cases hp; exact hd
    | succ p => rw [← ih hrest hp]; congr 1; omega

/-! ## What each format accepts -/

theorem decodeR_eq_ok {mk : Mode → Instr} {n : Nat} {i : Instr} :
    decodeR mk n = .ok i ↔ ∃ a, digit n 2 = a.digit ∧ mk a = i := by
  simp only [← readMode_eq_ok, decodeR]
  cases readMode n 1 <;> simp

theorem decodeW_eq_ok {mk : Mode → Instr} {n : Nat} {i : Instr} :
    decodeW mk n = .ok i ↔ ∃ a, (digit n 2 = a.digit ∧ a.writable = true) ∧ mk a = i := by
  simp only [← writeMode_eq_ok, decodeW]
  cases writeMode n 1 <;> simp

theorem decodeRR_eq_ok {mk : Mode → Mode → Instr} {n : Nat} {i : Instr} :
    decodeRR mk n = .ok i ↔ ∃ a b, digit n 2 = a.digit ∧ digit n 3 = b.digit ∧ mk a b = i := by
  simp only [← readMode_eq_ok, decodeRR]
  cases readMode n 1 <;> cases readMode n 2 <;> simp

theorem decodeRRW_eq_ok {mk : Mode → Mode → Mode → Instr} {n : Nat} {i : Instr} :
    decodeRRW mk n = .ok i ↔ ∃ a b c, digit n 2 = a.digit ∧ digit n 3 = b.digit ∧
      (digit n 4 = c.digit ∧ c.writable = true) ∧ mk a b c = i := by
  simp only [← writeMode_eq_ok, decodeRRW]
  simp only [← readMode_eq_ok]
  cases readMode n 1 <;> cases readMode n 2 <;> cases writeMode n 3 <;> simp

/-! ## What the decoder accepts -/

/-- The decoder accepts a word for the instruction whose opcode and modes its digits name. -/
theorem decodeNat_eq_ok {n : Nat} {i : Instr} :
    decodeNat n = .ok i ↔ i.wf = true ∧ n % 100 = i.opcode ∧ ModesAt n 2 i.modes := by
  constructor
  case mp =>
    intro h
    refine ⟨decodeNat_wf h, ?_⟩
    unfold decodeNat at h
    split at h
    case h_1 | h_2 | h_7 | h_8 =>
      obtain ⟨a, b, c, ha, hb, ⟨hc, -⟩, rfl⟩ := decodeRRW_eq_ok.1 h
      exact ⟨by assumption, ha, hb, hc, trivial⟩
    case h_3 => obtain ⟨a, ⟨ha, -⟩, rfl⟩ := decodeW_eq_ok.1 h; exact ⟨by assumption, ha, trivial⟩
    case h_4 | h_9 => obtain ⟨a, ha, rfl⟩ := decodeR_eq_ok.1 h; exact ⟨by assumption, ha, trivial⟩
    case h_5 | h_6 => obtain ⟨a, b, ha, hb, rfl⟩ := decodeRR_eq_ok.1 h; exact ⟨by assumption, ha, hb, trivial⟩
    case h_10 => cases h; exact ⟨by assumption, trivial⟩
    case h_11 => cases h
  case mpr =>
    rintro ⟨hwf, hop, hm⟩
    unfold decodeNat
    rw [hop]
    cases i with
    | add a b c | multiply a b c | lessThan a b c | equals a b c =>
      obtain ⟨ha, hb, hc, -⟩ := hm
      exact decodeRRW_eq_ok.2 ⟨a, b, c, ha, hb, ⟨hc, hwf⟩, rfl⟩
    | input a => exact decodeW_eq_ok.2 ⟨a, ⟨hm.1, hwf⟩, rfl⟩
    | output a | adjustBase a => exact decodeR_eq_ok.2 ⟨a, hm.1, rfl⟩
    | jumpIfTrue a b | jumpIfFalse a b =>
      obtain ⟨ha, hb, -⟩ := hm
      exact decodeRR_eq_ok.2 ⟨a, b, ha, hb, rfl⟩
    | halt => rfl

theorem decode_eq_ok {w : Word} {i : Instr} : decode w = .ok i ↔ 0 ≤ w.toInt ∧ decodeNat w.toNat = .ok i := by
  unfold decode
  split_ifs with hw
  · simp [Int.not_le.2 hw]
  · simp [Int.not_lt.1 hw]

theorem Instr.opcode_lt (i : Instr) : i.opcode < 100 := by cases i <;> simp [Instr.opcode]

theorem Instr.length_modes_le (i : Instr) : i.modes.length ≤ 3 := by cases i <;> simp [Instr.modes]

/-- Settles O3: the examined digits are the opcode's two and the modes' number, which is how `encodeNat` is put
together. -/
theorem decodeAcceptsExactlyTheFormats : Obligations.DecodeAcceptsExactlyTheFormats := by
  intro w i
  have hsplit : w.toNat % 10 ^ (2 + i.modes.length) =
      w.toNat % 100 + 100 * (w.toNat / 10 ^ 2 % 10 ^ i.modes.length) := by
    rw [Nat.pow_add, Nat.mod_mul]
  have hop := i.opcode_lt
  rw [decode_eq_ok, decodeNat_eq_ok, modesAt_iff, hsplit, encodeNat]
  refine and_congr_right fun _ => and_congr_right fun _ => ?_
  omega

theorem encodeNat_lt (i : Instr) : encodeNat i < 10 ^ (2 + i.modes.length) := by
  have hop := i.opcode_lt
  have hm := modesNumber_lt i.modes
  rw [Nat.pow_add, encodeNat]
  omega

/-- An instruction's word is small, so that nothing of it is lost in 64 bits, and is not negative. -/
theorem encodeNat_lt_two_pow (i : Instr) : encodeNat i < 2 ^ 63 :=
  calc encodeNat i < 10 ^ (2 + i.modes.length) := encodeNat_lt i
    _ ≤ 10 ^ 5 := Nat.pow_le_pow_right (by decide) (by have := i.length_modes_le; omega)
    _ < 2 ^ 63 := by decide

theorem encode_toNat (i : Instr) : (encode i).toNat = encodeNat i := by
  have := encodeNat_lt_two_pow i
  rw [encode, BitVec.toNat_ofNat]
  omega

theorem encode_nonneg (i : Instr) : 0 ≤ (encode i).toInt := by
  have hlt := encodeNat_lt_two_pow i
  have hnat := encode_toNat i
  rw [BitVec.toInt_eq_toNat_of_lt (by omega)]
  exact Int.natCast_nonneg _

/-- Settles O2: the assembled word meets the three conditions under which a word decodes to the instruction. -/
theorem decodeAfterEncodeIsIdentity : Obligations.DecodeAfterEncodeIsIdentity := by
  intro i hwf
  refine (decodeAcceptsExactlyTheFormats (encode i) i).2 ⟨encode_nonneg i, hwf, ?_⟩
  rw [encode_toNat, Nat.mod_eq_of_lt (encodeNat_lt i)]

/-- Settles O4 (30_encoding.md R81): the decoder accepts by the digits. -/
theorem decodedFieldsAreDecimalDigits : Obligations.DecodedFieldsAreDecimalDigits := by
  refine ⟨fun w i h => ?_, by decide⟩
  obtain ⟨-, hop, hm⟩ := decodeNat_eq_ok.1 (decode_eq_ok.1 h).2
  refine ⟨hop.symm, fun p m hp => ?_⟩
  rw [← hm.digit_eq hp, Nat.add_comm 2 p, digit]

/-- Settles O1, word by word. -/
theorem workedWordsDecode : Obligations.WorkedWordsDecode := by
  unfold Obligations.WorkedWordsDecode
  decide

/-! ## What the decoder refuses -/

/-- Every parameter before parameter `p` has a mode digit that is a mode's. -/
def ModesLegalBefore (n p : Nat) : Prop := ∀ q, 1 ≤ q → q < p → digit n (q + 1) < 3

theorem modesLegalBefore_one (n : Nat) : ModesLegalBefore n 1 := fun q h1 hq => by omega

theorem modesLegalBefore_succ {n p : Nat} (h : ModesLegalBefore n p) (hp : digit n (p + 1) < 3) :
    ModesLegalBefore n (p + 1) := by
  intro q h1 hq
  obtain rfl | hlt : q = p ∨ q < p := by omega
  · exact hp
  · exact h q h1 hlt

/-- Parameter `p` of the opcode `op` is its write parameter (30_encoding.md R84, R88). -/
def IsWriteParam (op p : Nat) : Prop := (p = 3 ∧ (op = 1 ∨ op = 2 ∨ op = 7 ∨ op = 8)) ∨ (p = 1 ∧ op = 3)

/-- What the digits of `n` are like when the decoder refuses it with a given error (30_encoding.md R87). -/
def Refuses (n : Nat) : DecodeError → Prop
  | .unknownOpcode => n % 100 = 0 ∨ (10 ≤ n % 100 ∧ n % 100 ≤ 98)
  | .illegalMode p => 1 ≤ p ∧ p ≤ Machine.paramCount (n % 100) ∧ 3 ≤ digit n (p + 1) ∧ ModesLegalBefore n p
  | .illegalWriteMode p => IsWriteParam (n % 100) p ∧ digit n (p + 1) = 1 ∧ ModesLegalBefore n p

theorem decodeR_refuses {mk : Mode → Instr} {n : Nat} {e : DecodeError} (hop : 1 ≤ Machine.paramCount (n % 100))
    (h : decodeR mk n = .error e) : Refuses n e := by
  rcases decodeR_eq mk n with ⟨a, -, heq⟩ | ⟨hd, heq⟩ <;> cases heq.symm.trans h
  exact ⟨le_rfl, hop, hd, modesLegalBefore_one n⟩

theorem decodeW_refuses {mk : Mode → Instr} {n : Nat} {e : DecodeError} (hop : n % 100 = 3)
    (h : decodeW mk n = .error e) : Refuses n e := by
  rcases decodeW_eq mk n with ⟨a, -, -, heq⟩ | ⟨hd, heq⟩ | ⟨hd, heq⟩ <;> cases heq.symm.trans h
  · exact ⟨le_rfl, by rw [hop]; decide, hd, modesLegalBefore_one n⟩
  · exact ⟨.inr ⟨rfl, hop⟩, hd, modesLegalBefore_one n⟩

theorem decodeRR_refuses {mk : Mode → Mode → Instr} {n : Nat} {e : DecodeError}
    (hop : 2 ≤ Machine.paramCount (n % 100)) (h : decodeRR mk n = .error e) : Refuses n e := by
  have h1 := modesLegalBefore_one n
  rcases decodeRR_eq mk n with ⟨a, b, -, -, heq⟩ | ⟨hd, heq⟩ | ⟨ha, hd, heq⟩ <;> cases heq.symm.trans h
  · exact ⟨le_rfl, by omega, hd, h1⟩
  · exact ⟨by decide, hop, hd, modesLegalBefore_succ h1 ha⟩

theorem decodeRRW_refuses {mk : Mode → Mode → Mode → Instr} {n : Nat} {e : DecodeError}
    (hop : n % 100 = 1 ∨ n % 100 = 2 ∨ n % 100 = 7 ∨ n % 100 = 8) (h : decodeRRW mk n = .error e) : Refuses n e := by
  have hcount : Machine.paramCount (n % 100) = 3 := by rcases hop with h | h | h | h <;> rw [h] <;> rfl
  have h1 := modesLegalBefore_one n
  rcases decodeRRW_eq mk n with ⟨a, b, c, -, -, -, -, heq⟩ | ⟨hd, heq⟩ | ⟨ha, hd, heq⟩ | ⟨ha, hb, hd, heq⟩ |
    ⟨ha, hb, hd, heq⟩ <;> cases heq.symm.trans h
  · exact ⟨le_rfl, by omega, hd, h1⟩
  · exact ⟨by decide, by omega, hd, modesLegalBefore_succ h1 ha⟩
  · exact ⟨by decide, by omega, hd, modesLegalBefore_succ (modesLegalBefore_succ h1 ha) hb⟩
  · exact ⟨.inl ⟨rfl, hop⟩, hd, modesLegalBefore_succ (modesLegalBefore_succ h1 ha) hb⟩

/-- The decoder refuses a word only for what its digits are. -/
theorem decodeNat_refuses {n : Nat} {e : DecodeError} (h : decodeNat n = .error e) : Refuses n e := by
  unfold decodeNat at h
  split at h
  case h_1 | h_2 | h_7 | h_8 => exact decodeRRW_refuses (by omega) h
  case h_3 => exact decodeW_refuses (by assumption) h
  case h_4 hop | h_9 hop => exact decodeR_refuses (by rw [hop]; decide) h
  case h_5 hop | h_6 hop => exact decodeRR_refuses (by rw [hop]; decide) h
  case h_10 => cases h
  case h_11 => cases h; simp only [imp_false] at *; simp only [Refuses]; omega

/-- The error names parameter `p`. -/
def DecodeError.Names (e : DecodeError) (p : Nat) : Prop := e = .illegalMode p ∨ e = .illegalWriteMode p

theorem DecodeError.unknownOpcode_or_names (e : DecodeError) : e = .unknownOpcode ∨ ∃ p, e.Names p := by
  cases e with
  | unknownOpcode => exact .inl rfl
  | illegalMode p => exact .inr ⟨p, .inl rfl⟩
  | illegalWriteMode p => exact .inr ⟨p, .inr rfl⟩

/-- A write parameter is the last parameter. -/
theorem IsWriteParam.eq_paramCount {op p : Nat} (h : IsWriteParam op p) : 1 ≤ p ∧ p = Machine.paramCount op := by
  obtain ⟨rfl, rfl | rfl | rfl | rfl⟩ | ⟨rfl, rfl⟩ := h <;> decide

section
variable {n p q : Nat} {e e' : DecodeError}

/-- A word refused for its opcode has no parameters to be refused for. -/
theorem paramCount_of_refuses (h : Refuses n .unknownOpcode) : Machine.paramCount (n % 100) = 0 := by
  unfold Machine.paramCount
  simp only [Refuses] at h
  split <;> omega

/-- The parameter an error names is one of the format's. -/
theorem Refuses.param_le (h : Refuses n e) (he : e.Names p) : 1 ≤ p ∧ p ≤ Machine.paramCount (n % 100) := by
  rcases he with rfl | rfl
  · exact ⟨h.1, h.2.1⟩
  · exact ⟨h.1.eq_paramCount.1, h.1.eq_paramCount.2.le⟩

theorem Refuses.legalBefore (h : Refuses n e) (he : e.Names p) : ModesLegalBefore n p := by
  rcases he with rfl | rfl
  · obtain ⟨-, -, -, hbefore⟩ := h; exact hbefore
  · exact h.2.2

/-- An error names the first bad parameter, and immediate mode is bad in the last parameter only. -/
theorem Refuses.param_ge (h : Refuses n e) (he : e.Names p) (h' : Refuses n e') (he' : e'.Names q) : q ≤ p := by
  by_contra hlt
  have hle := (h'.param_le he').2
  have hbefore := h'.legalBefore he' p (h.param_le he).1 (by omega)
  rcases he with rfl | rfl
  · have hbad := h.2.2.1; omega
  · have hlast := h.1.eq_paramCount.2; omega

/-- A word is refused with one error only. -/
theorem Refuses.unique (h : Refuses n e) (h' : Refuses n e') : e = e' := by
  rcases e.unknownOpcode_or_names with rfl | ⟨p, hp⟩ <;> rcases e'.unknownOpcode_or_names with rfl | ⟨q, hq⟩
  · rfl
  · have := h'.param_le hq; have := paramCount_of_refuses h; omega
  · have := h.param_le hp; have := paramCount_of_refuses h'; omega
  · obtain rfl : p = q := le_antisymm (h'.param_ge hq h hp) (h.param_ge hp h' hq)
    rcases hp with rfl | rfl <;> rcases hq with rfl | rfl
    · rfl
    · have := h.2.2.1; have := h'.2.1; omega
    · have := h.2.1; have := h'.2.2.1; omega
    · rfl

end

theorem Instr.paramCount_opcode (i : Instr) : Machine.paramCount i.opcode = i.modes.length := by cases i <;> rfl

theorem Instr.opcode_legal (i : Instr) : (1 ≤ i.opcode ∧ i.opcode ≤ 9) ∨ i.opcode = 99 := by
  cases i <;> simp [Instr.opcode]

/-- The write parameter of a well-formed instruction has a writable mode. -/
theorem Instr.writable_of_isWriteParam {i : Instr} {p : Nat} (hwf : i.wf = true) (h : IsWriteParam i.opcode p) :
    ∃ m, i.modes[p - 1]? = some m ∧ m.writable = true := by
  cases i with
  | add _ _ c | multiply _ _ c | lessThan _ _ c | equals _ _ c =>
    obtain ⟨rfl, -⟩ | ⟨-, h⟩ := h
    · exact ⟨c, rfl, hwf⟩
    · cases h
  | input c =>
    obtain ⟨-, h⟩ | ⟨rfl, -⟩ := h
    · simp [Instr.opcode] at h
    · exact ⟨c, rfl, hwf⟩
  | output | jumpIfTrue | jumpIfFalse | adjustBase | halt => simp [IsWriteParam, Instr.opcode] at h

/-- A word the decoder accepts has the digits of no error. -/
theorem not_refuses_of_ok {n : Nat} {i : Instr} {e : DecodeError} (h : decodeNat n = .ok i) : ¬ Refuses n e := by
  intro hr
  obtain ⟨hwf, hop, hm⟩ := decodeNat_eq_ok.1 h
  have hdigit : ∀ p m, 1 ≤ p → i.modes[p - 1]? = some m → digit n (p + 1) = m.digit := by
    intro p m h1 hp
    rw [← hm.digit_eq hp]
    congr 1; omega
  cases e with
  | unknownOpcode =>
    have hlegal := i.opcode_legal
    simp only [Refuses] at hr
    omega
  | illegalMode p =>
    obtain ⟨h1, hp, hbad, -⟩ := hr
    rw [hop, i.paramCount_opcode] at hp
    have hget := List.getElem?_eq_getElem (l := i.modes) (i := p - 1) (by omega)
    have := hdigit p _ h1 hget
    have := Mode.digit_le i.modes[p - 1]
    omega
  | illegalWriteMode p =>
    obtain ⟨hw, hone, -⟩ := hr
    obtain ⟨m, hget, hwr⟩ := Instr.writable_of_isWriteParam hwf (hop ▸ hw)
    exact Mode.digit_ne_one_of_writable hwr ((hdigit p m hw.eq_paramCount.1 hget).symm.trans hone)

/-- The decoder refuses a word with an error exactly when its digits are those of the error. -/
theorem decodeNat_eq_error {n : Nat} {e : DecodeError} : decodeNat n = .error e ↔ Refuses n e := by
  refine ⟨decodeNat_refuses, fun hr => ?_⟩
  cases hd : decodeNat n with
  | ok i => exact absurd hr (not_refuses_of_ok hd)
  | error e' => rw [(decodeNat_refuses hd).unique hr]

theorem decode_eq_error {w : Word} {e : DecodeError} :
    decode w = .error e ↔ (w.toInt < 0 ∧ e = .unknownOpcode) ∨ (0 ≤ w.toInt ∧ Refuses w.toNat e) := by
  unfold decode
  split_ifs with hw
  · simp [hw, Int.not_le.2 hw, eq_comm]
  · simp [hw, Int.not_lt.1 hw, decodeNat_eq_error]

end Sys2Proof

namespace Sys2Proof.Machine

/-- The record of a fault raised at a word that was fetched holds the word. -/
theorem State.faultInfo_of_inSpace {s : State} (h : s.inSpace s.pc) (t : Trap) :
    s.faultInfo t = { kind := t.kind, code := t.kind.code, atPc := s.pc, word := some (s.mem.read s.pc.toNat),
                      param := t.param } := by
  rw [State.faultInfo, State.fetchedWord_eq, if_pos h]; rfl

/-- Settles O7: the decoder's errors by the digits (`Refuses`), and the step that takes them. -/
theorem decodeFaultsExactly : Obligations.DecodeFaultsExactly := by
  refine ⟨fun w p => ⟨?opcode, ?mode, ?writeMode⟩, fun s r w p hr hp hw => ?taken⟩
  case opcode =>
    rw [decode_eq_error]
    simp only [Refuses, and_true]
    omega
  case mode => simp [decode_eq_error, Refuses, ModesLegalBefore]
  case writeMode => simp [decode_eq_error, Refuses, ModesLegalBefore, IsWriteParam]
  case taken =>
    subst hw
    have hstep : ∀ e, decode (s.mem.read s.pc.toNat) = .error e →
        step s = .next (s.raise (trapOfDecodeError e)) ∧
          (s.raise (trapOfDecodeError e)).fault = some (s.faultInfo (trapOfDecodeError e)) :=
      fun e he => ⟨step_of_decode_error hr hp he, s.raise_fault _⟩
    simp only [State.faultInfo_of_inSpace hp] at hstep
    exact ⟨hstep .unknownOpcode, hstep (.illegalWriteMode p), hstep (.illegalMode p)⟩

end Sys2Proof.Machine

/-! # Memories as data, and wrapping (10_state.md section 7, 00_scope.md section 5) -/

namespace Sys2Proof.Machine

/-- A memory whose entries all lie above `a` reads as unwritten at `a`. -/
theorem Memory.read_of_lt {m : Memory} {a : Nat} (h : ∀ c ∈ m, a < c.1) : m.read a = 0 :=
  Memory.read_unlisted fun c hc => (h c hc).ne'

/-- The first entry of a memory in canonical form is its lowest non-zero cell, so a memory with the same cells has no
lower one. -/
theorem Memory.first_le {k l : Nat} {x y : Word} {m n : Memory} (hm : Memory.wf ((k, x) :: m))
    (hn : Memory.wf ((l, y) :: n)) (h : Memory.read ((k, x) :: m) k = Memory.read ((l, y) :: n) k) : l ≤ k := by
  obtain ⟨-, hx, -⟩ := Memory.wf_cons.1 hm
  obtain ⟨hlt, -, -⟩ := Memory.wf_cons.1 hn
  by_contra hkl
  have hzero : Memory.read ((l, y) :: n) k = 0 := by
    refine Memory.read_of_lt fun c hc => ?_
    rcases List.mem_cons.1 hc with rfl | hc
    · exact Nat.lt_of_not_le hkl
    · exact (Nat.lt_of_not_le hkl).trans (hlt c hc)
  rw [hzero, Memory.read_cons, if_pos rfl] at h
  exact hx h

/-- Settles O11, by induction on one memory: the first entries agree, and so do the cells of the rest. -/
theorem equalMemoriesAreEqualData : Obligations.EqualMemoriesAreEqualData := by
  intro m
  induction m with
  | nil =>
    intro n _ hn h
    cases n with
    | nil => rfl
    | cons d n =>
      have hd := h d.1
      rw [Memory.read_cons, if_pos rfl] at hd
      exact absurd hd.symm (Memory.wf_cons.1 hn).2.1
  | cons c m ih =>
    intro n hm hn h
    obtain ⟨k, x⟩ := c
    obtain ⟨hlt, hx, hm'⟩ := Memory.wf_cons.1 hm
    cases n with
    | nil =>
      have hk := h k
      rw [Memory.read_cons, if_pos rfl] at hk
      exact absurd hk hx
    | cons d n =>
      obtain ⟨l, y⟩ := d
      obtain ⟨hlt', -, hn'⟩ := Memory.wf_cons.1 hn
      obtain rfl : k = l := le_antisymm (Memory.first_le hn hm (h l).symm) (Memory.first_le hm hn (h k))
      have hxy : x = y := by simpa using h k
      refine congrArg₂ _ (by rw [hxy]) (ih n hm' hn' fun a => ?_)
      by_cases ha : k = a
      · subst ha; rw [Memory.read_of_lt hlt, Memory.read_of_lt hlt']
      · simpa [ha] using h a

theorem wrap64_toInt (z : Int) : (wrap64 z).toInt = (z + 2 ^ 63) % 2 ^ 64 - 2 ^ 63 := by
  rw [wrap64, BitVec.toInt_ofInt, Int.bmod]
  split <;> omega

/-- Settles O8. -/
theorem wrapIsCongruentInRange : Obligations.WrapIsCongruentInRange := by
  intro z
  have hz := wrap64_toInt z
  exact ⟨hz, fun hlo hhi => by omega⟩

end Sys2Proof.Machine

/-! # Operands (40_operands.md sections 2, 4 and 6) -/

namespace Sys2Proof.Machine

/-! ## The effective address -/

section
variable {s : State} {p : Nat} {m : Mode} {raw : Word} {a : Int}

theorem State.fetchParam_of_inSpace (hp : s.inSpace (s.pc + p)) (hraw : s.mem.read (s.pc + p).toNat = raw) :
    s.fetchParam p = .ok raw := by
  rw [← hraw]; exact State.memRead_of_inSpace hp _

/-- In position and relative mode the effective address is the check of the exact sum. -/
theorem State.effectiveAddress_eq
    (ha : m = .position ∧ a = raw.toInt ∨ m = .relative ∧ a = s.rb.toInt + raw.toInt) :
    s.effectiveAddress p m raw = s.checkAddr a (some p) := by
  obtain ⟨rfl, rfl⟩ | ⟨rfl, rfl⟩ := ha <;> rfl

theorem State.dst_of_raw (hp : s.inSpace (s.pc + p)) (hraw : s.mem.read (s.pc + p).toNat = raw) :
    s.dst p m = s.effectiveAddress p m raw := by
  rw [State.dst, State.fetchParam_of_inSpace hp hraw]

/-- An effective address that is no address is refused, for reading and for writing. -/
theorem State.val_dst_of_not_inSpace (hp : s.inSpace (s.pc + p)) (hraw : s.mem.read (s.pc + p).toNat = raw)
    (ha : m = .position ∧ a = raw.toInt ∨ m = .relative ∧ a = s.rb.toInt + raw.toInt) (hout : ¬ s.inSpace a) :
    s.val p m = .error (addressTrap a (some p)) ∧ s.dst p m = .error (addressTrap a (some p)) := by
  have hea : s.effectiveAddress p m raw = .error (addressTrap a (some p)) :=
    (State.effectiveAddress_eq ha).trans (State.checkAddr_of_not_inSpace hout _)
  refine ⟨?_, (State.dst_of_raw hp hraw).trans hea⟩
  rw [State.val, State.fetchParam_of_inSpace hp hraw]
  obtain ⟨rfl, -⟩ | ⟨rfl, -⟩ := ha <;> simp only [State.readOperand, hea]

end

/-- Settles O13: an operand's address is `checkAddr` of the exact sum, in which the memory appears only as the raw
parameter. -/
theorem effectiveAddressIsExact : Obligations.EffectiveAddressIsExact := by
  intro s p m raw a hp hraw ha
  refine ⟨fun hneg => ?below, fun hlim h0 => ?beyond, fun hin => ?inside, fun other hother => ?unread⟩
  case below =>
    rw [← addressTrap_of_neg hneg]
    exact State.val_dst_of_not_inSpace hp hraw ha (s.not_inSpace_of_neg hneg)
  case beyond =>
    rw [← addressTrap_of_nonneg h0]
    exact State.val_dst_of_not_inSpace hp hraw ha (State.not_inSpace_of_limit_le hlim)
  case inside =>
    rw [State.dst_of_raw hp hraw, State.effectiveAddress_eq ha, State.checkAddr_of_inSpace hin]
  case unread =>
    rw [State.dst_of_raw hp hraw, State.dst_of_raw (s := { s with mem := other }) hp hother]
    cases m <;> rfl

/-! ## Formats RRW and RR by how their parameters resolve -/

section
variable {s : State} {a b c : Mode}

theorem State.storeBinary_of_trap (f : Word → Word → Word) {t : Trap} (h : s.resolveRRW a b c = .error t) :
    s.storeBinary f a b c = s.raise t := by
  rw [State.storeBinary, h]

theorem State.storeBinary_of_ok (f : Word → Word → Word) {v1 v2 : Word} {d : Nat}
    (h : s.resolveRRW a b c = .ok (v1, v2, d)) :
    s.storeBinary f a b c = (s.memWrite d (f v1 v2)).retire (s.pc + 4) := by
  rw [State.storeBinary, h]

theorem State.jumpWhen_of_trap (cond : Word → Bool) {t : Trap} (h : s.resolveRR a b = .error t) :
    s.jumpWhen cond a b = s.raise t := by
  rw [State.jumpWhen, h]

theorem State.jumpWhen_of_ok (cond : Word → Bool) {v1 v2 : Word} (h : s.resolveRR a b = .ok (v1, v2)) :
    s.jumpWhen cond a b = s.retire (if cond v1 then v2.toInt else s.pc + 3) := by
  rw [State.jumpWhen, h]

theorem State.resolveRRW_of_resolvable (ha : s.readable 1 a) (hb : s.readable 2 b) (hc : s.writable 3 c) :
    s.resolveRRW a b c = .ok (s.value 1 a, s.value 2 b, s.target 3 c) := by
  rw [State.resolveRRW_eq, if_pos ha, if_pos hb, if_pos hc]

theorem State.resolveRR_of_readable (ha : s.readable 1 a) (hb : s.readable 2 b) :
    s.resolveRR a b = .ok (s.value 1 a, s.value 2 b) := by
  rw [State.resolveRR_eq, if_pos ha, if_pos hb]

end

/-! ## `input`, `output` and `adjust-base` by how their parameter resolves -/

section
variable {s : State} {a c : Mode} {t : Trap} {v : Word} {d : Nat}

theorem exec_input_of_trap (h : s.dst 1 c = .error t) : exec (.input c) s = .next (s.raise t) := by
  change execInput c s = _
  rw [execInput, h]

theorem exec_input_of_dst_nil (h : s.dst 1 c = .ok d) (hq : s.inq = []) : exec (.input c) s = s.inputEmpty := by
  change execInput c s = _
  rw [execInput, h, hq]

theorem exec_input_of_dst_cons (h : s.dst 1 c = .ok d) {x : Word} {rest : List Word} (hq : s.inq = x :: rest) :
    exec (.input c) s = .next (({ s with inq := rest }.memWrite d x).retire (s.pc + 2)) := by
  change execInput c s = _
  rw [execInput, h, hq]

theorem exec_output_of_trap (h : s.val 1 a = .error t) : exec (.output a) s = .next (s.raise t) := by
  change execOutput a s = _
  rw [execOutput, h]

theorem exec_output_of_val (h : s.val 1 a = .ok v) :
    exec (.output a) s = .next ({ s with out := s.out ++ [v] }.retire (s.pc + 2)) := by
  change execOutput a s = _
  rw [execOutput, h]

theorem exec_adjustBase_of_trap (h : s.val 1 a = .error t) : exec (.adjustBase a) s = .next (s.raise t) := by
  change execAdjustBase a s = _
  rw [execAdjustBase, h]

theorem exec_adjustBase_of_val (h : s.val 1 a = .ok v) :
    exec (.adjustBase a) s = .next ({ s with rb := wrapSum s.rb v }.retire (s.pc + 2)) := by
  change execAdjustBase a s = _
  rw [execAdjustBase, h]

end

/-! ## The first parameter that does not resolve gives the fault -/

/-- The instructions of format RRW are `storeBinary` with one function each. -/
theorem exec_eq_storeBinary {i : Instr} {a b c : Mode}
    (hi : i = .add a b c ∨ i = .multiply a b c ∨ i = .lessThan a b c ∨ i = .equals a b c) :
    ∃ f : Word → Word → Word, ∀ s : State, exec i s = .next (s.storeBinary f a b c) := by
  obtain rfl | rfl | rfl | rfl := hi
  exacts [⟨_, exec_add a b c⟩, ⟨_, exec_multiply a b c⟩, ⟨_, exec_lessThan a b c⟩, ⟨_, exec_equals a b c⟩]

/-- The jumps are `jumpWhen` with one condition each. -/
theorem exec_eq_jumpWhen {i : Instr} {a b : Mode} (hi : i = .jumpIfTrue a b ∨ i = .jumpIfFalse a b) :
    ∃ cond : Word → Bool, ∀ s : State, exec i s = .next (s.jumpWhen cond a b) := by
  obtain rfl | rfl := hi
  exacts [⟨_, exec_jumpIfTrue a b⟩, ⟨_, exec_jumpIfFalse a b⟩]

/-- Settles O14: resolution goes through the parameters in order and stops at the first that does not resolve. -/
theorem firstUnresolvableParameterFaults : Obligations.FirstUnresolvableParameterFaults := by
  intro s a b c
  refine ⟨fun i hi => ?rrw, fun i hi => ?rr, fun i hi ha => ?r, fun hc => ?w⟩
  case rrw =>
    obtain ⟨f, hexec⟩ := exec_eq_storeBinary hi
    rw [hexec, State.storeBinary_eq]
    refine ⟨fun ha => ?_, fun ha hb => ?_, fun ha hb hc => ?_⟩
    · rw [if_neg ha]
    · rw [if_pos ha, if_neg hb]
    · rw [if_pos ha, if_pos hb, if_neg hc]
  case rr =>
    obtain ⟨cond, hexec⟩ := exec_eq_jumpWhen hi
    rw [hexec, State.jumpWhen_eq]
    refine ⟨fun ha => ?_, fun ha hb => ?_⟩
    · rw [if_neg ha]
    · rw [if_pos ha, if_neg hb]
  case r =>
    obtain rfl | rfl := hi
    · rw [exec_output, if_neg ha]
    · rw [exec_adjustBase, if_neg ha]
  case w => rw [exec_input, if_neg hc]

end Sys2Proof.Machine

/-! # The instructions, where their operands resolve (41_arithmetic.md to 46_halt.md) -/

namespace Sys2Proof.Machine

/-- Settles O15 (41_arithmetic.md R130). -/
theorem addStoresTheWrappedSum : Obligations.AddStoresTheWrappedSum := by
  intro a b c s ha hb hc
  rw [exec_add, State.storeBinary_of_ok _ (State.resolveRRW_of_resolvable ha hb hc)]
  rfl

/-- Settles O16 (41_arithmetic.md R131). -/
theorem multiplyStoresTheWrappedProduct : Obligations.MultiplyStoresTheWrappedProduct := by
  intro a b c s ha hb hc
  rw [exec_multiply, State.storeBinary_of_ok _ (State.resolveRRW_of_resolvable ha hb hc)]
  rfl

theorem lessThanWord_eq (v w : Word) : lessThanWord v w = if v.toInt < w.toInt then 1 else 0 := by
  simp [lessThanWord, truthWord]

/-- Two words are equal when the integers they stand for are. -/
theorem equalsWord_eq (v w : Word) : equalsWord v w = if v = w then 1 else 0 := by
  simp [equalsWord, truthWord, BitVec.toInt_inj]

theorem isNonZero_eq (v : Word) : isNonZero v = decide (v.toInt ≠ 0) := rfl

/-- Settles O17 (44_compare.md R160). -/
theorem lessThanStoresTheTruthValue : Obligations.LessThanStoresTheTruthValue := by
  intro a b c s ha hb hc
  rw [exec_lessThan, State.storeBinary_of_ok _ (State.resolveRRW_of_resolvable ha hb hc), lessThanWord_eq]
  rfl

/-- Settles O18 (44_compare.md R161). -/
theorem equalsStoresTheTruthValue : Obligations.EqualsStoresTheTruthValue := by
  intro a b c s ha hb hc
  rw [exec_equals, State.storeBinary_of_ok _ (State.resolveRRW_of_resolvable ha hb hc), equalsWord_eq]
  rfl

/-- Settles O19 (42_io.md R140). -/
theorem inputStoresTheHeadOfTheQueue : Obligations.InputStoresTheHeadOfTheQueue :=
  fun _ _ _ _ hc hq => exec_input_of_cons hc hq

/-- Settles O20 (42_io.md R140): the policy of the run decides, and without a run there is none. -/
theorem inputOnAnEmptyQueue : Obligations.InputOnAnEmptyQueue := by
  intro c s hc hq
  rw [exec_input_of_nil hc hq]
  exact ⟨fun r => State.inputEmpty_of_streaming, fun r => State.inputEmpty_of_batch,
    fun hr => by simp [State.inputEmpty, hr]⟩

/-- Settles O21 (42_io.md R141). -/
theorem outputAppendsTheValue : Obligations.OutputAppendsTheValue :=
  fun a s ha => (exec_output a s).trans (if_pos ha)

/-- Settles O22 (43_jumps.md R150). -/
theorem jumpIfTrueJumpsOnNonZero : Obligations.JumpIfTrueJumpsOnNonZero := by
  intro a b s ha hb
  rw [exec_jumpIfTrue, State.jumpWhen_of_ok _ (State.resolveRR_of_readable ha hb)]
  simp only [isNonZero_eq, decide_eq_true_eq]
  rfl

/-- Settles O23 (43_jumps.md R151). -/
theorem jumpIfFalseJumpsOnZero : Obligations.JumpIfFalseJumpsOnZero := by
  intro a b s ha hb
  rw [exec_jumpIfFalse, State.jumpWhen_of_ok _ (State.resolveRR_of_readable ha hb)]
  simp only [isNonZero_eq, ne_eq, decide_not, Bool.not_not, decide_eq_true_eq]
  rfl

/-- Settles O24 (45_adjust_base.md R170). -/
theorem adjustBaseAddsToTheBase : Obligations.AdjustBaseAddsToTheBase :=
  fun a s ha => (exec_adjustBase a s).trans (if_pos ha)

theorem State.endRun_of_run_none {s : State} (hr : s.run = none) (o : RunOutcome) : s.endRun o = s := by
  rw [State.endRun, hr]

/-- Settles O25 (46_halt.md R175). -/
theorem haltEndsTheRun : Obligations.HaltEndsTheRun := by
  refine fun s => ⟨fun r hr => ?_, fun hr => ?_⟩
  · rw [exec_halt, State.endRun_of_run (s := { s with status := .halted }) hr]
  · rw [exec_halt, State.endRun_of_run_none (s := { s with status := .halted }) hr]

/-- A store to the cell the instruction retires to is what the next fetch reads. -/
theorem State.fetch_retire_memWrite {s : State} (hwf : s.mem.wf) {d : Nat} (hd : d < s.cfg.addrLimit) {next : Int}
    (hnext : next = (d : Int)) (v : Word) : ((s.memWrite d v).retire next).fetch = .ok v := by
  have hin : s.inSpace next := ⟨by omega, by omega⟩
  rw [State.fetch_of_inSpace (s := (s.memWrite d v).retire next) hin, State.retire_pc, hnext, Int.toNat_natCast,
    State.retire_mem, State.memWrite_mem, Memory.read_write_same hwf]

/-- The destination of a resolved format RRW is the one that was resolved. -/
theorem State.dst_of_resolveRRW {s : State} {a b c : Mode} {v1 v2 : Word} {d : Nat}
    (h : s.resolveRRW a b c = .ok (v1, v2, d)) : s.dst 3 c = .ok d := by
  unfold State.resolveRRW at h
  split at h
  · cases h
  · split at h
    · cases h
    · cases h; assumption

/-- Settles O52 (20_memory.md section 5). -/
theorem storeIsSeenByTheNextFetch : Obligations.StoreIsSeenByTheNextFetch := by
  refine ⟨fun i a b c s t v1 v2 d hwf hres hpc => ?stored, fun m s t x rest d hwf hd hpc hq h => ?queued⟩
  case stored =>
    have hlt := State.dst_lt (State.dst_of_resolveRRW hres)
    have hfetch : ∀ f : Word → Word → Word, (s.storeBinary f a b c).fetch = .ok (f v1 v2) := fun f => by
      rw [State.storeBinary_of_ok f hres, State.fetch_retire_memWrite hwf hlt hpc]
    refine ⟨?_, ?_, ?_, ?_⟩ <;> (rintro rfl h; cases h; refine (hfetch _).trans ?_)
    · rfl
    · rfl
    · rw [lessThanWord_eq]
    · rw [equalsWord_eq]
  case queued =>
    cases (exec_input_of_dst_cons hd hq).symm.trans h
    exact State.fetch_retire_memWrite (s := { s with inq := rest }) hwf (State.dst_lt hd) hpc x

end Sys2Proof.Machine

/-! # Frames (41_arithmetic.md to 46_halt.md): what an instruction leaves unchanged -/

namespace Sys2Proof.Machine

/-- Settles O26: the instruction stores one cell and retires, or takes a fault. -/
theorem storingBinaryFrame : Obligations.StoringBinaryFrame := by
  intro i a b c s t hi h
  obtain ⟨f, hexec⟩ := exec_eq_storeBinary hi
  obtain rfl := Host.Outcome.next.inj ((hexec s).symm.trans h)
  cases hres : s.resolveRRW a b c with
  | error e => simp [State.storeBinary_of_trap f hres]
  | ok v =>
    have hother : ∀ addr, (∀ d, s.dst 3 c = .ok d → addr ≠ d) →
        (s.mem.write v.2.2 (f v.1 v.2.1)).read addr = s.mem.read addr :=
      fun addr haddr => Memory.read_write_other _ (haddr _ (State.dst_of_resolveRRW hres)) _
    simpa [State.storeBinary_of_ok f hres] using hother

/-- `input` on an empty queue blocks the machine or takes InputExhausted, as the policy of the run says. -/
theorem State.inputEmpty_eq_next {s t : State} (h : s.inputEmpty = .next t) :
    ∃ r, s.run = some r ∧
      ((r.policy = .streaming ∧ t = State.returned { s with status := .blocked } r .blockedOnInput) ∨
        (r.policy = .batch ∧ t = s.raise { kind := .inputExhausted, param := none })) := by
  cases hr : s.run with
  | none => simp [State.inputEmpty, hr] at h
  | some r =>
    refine ⟨r, rfl, ?_⟩
    cases hp : r.policy with
    | streaming => exact .inl ⟨rfl, Host.Outcome.next.inj (h.symm.trans (State.inputEmpty_of_streaming hr hp))⟩
    | batch => exact .inr ⟨rfl, Host.Outcome.next.inj (h.symm.trans (State.inputEmpty_of_batch hr hp))⟩

/-- Settles O27: the destination does not resolve, or the queue is empty, or its head is stored. -/
theorem inputFrame : Obligations.InputFrame := by
  intro c s t h
  cases hd : s.dst 1 c with
  | error e =>
    cases (exec_input_of_trap hd).symm.trans h
    simp
  | ok d =>
    cases hq : s.inq with
    | nil =>
      rw [exec_input_of_dst_nil hd hq] at h
      obtain ⟨r, hr, ⟨-, rfl⟩ | ⟨-, rfl⟩⟩ := State.inputEmpty_eq_next h
      · simp [State.returned, hq]
      · simp [hq]
    | cons x rest =>
      cases (exec_input_of_dst_cons hd hq).symm.trans h
      have hother : ∀ addr, addr ≠ d → (s.mem.write d x).read addr = s.mem.read addr :=
        fun addr haddr => Memory.read_write_other _ haddr _
      simpa using hother

/-- Settles O28. -/
theorem outputFrame : Obligations.OutputFrame := by
  intro a s t h
  cases hv : s.val 1 a with
  | error e => cases (exec_output_of_trap hv).symm.trans h; simp
  | ok v => cases (exec_output_of_val hv).symm.trans h; simp

/-- Settles O29: a jump retires or takes a fault. -/
theorem jumpFrame : Obligations.JumpFrame := by
  intro i a b s t hi h
  obtain ⟨cond, hexec⟩ := exec_eq_jumpWhen hi
  obtain rfl := Host.Outcome.next.inj ((hexec s).symm.trans h)
  cases hres : s.resolveRR a b with
  | error e => simp [State.jumpWhen_of_trap cond hres]
  | ok v => simp [State.jumpWhen_of_ok cond hres]

/-- Settles O30. -/
theorem adjustBaseFrame : Obligations.AdjustBaseFrame := by
  intro a s t h
  cases hv : s.val 1 a with
  | error e => cases (exec_adjustBase_of_trap hv).symm.trans h; simp
  | ok v => cases (exec_adjustBase_of_val hv).symm.trans h; simp

/-- Settles O31: halt sets the status and returns from the run. -/
theorem haltFrame : Obligations.HaltFrame := by
  intro s t h
  cases (exec_halt s).symm.trans h
  simp

end Sys2Proof.Machine

/-! # What an instruction and a step of the core can do (47_dispatch_loop.md R182, 60_exceptions.md section 1) -/

namespace Sys2Proof.Machine

/-! ## Taking a fault -/

/-- The parameter a trap names is one there can be (10_state.md R29). -/
def Trap.ParamLegal (trap : Trap) : Prop :=
  trap.param = none ∨ trap.param = some 1 ∨ trap.param = some 2 ∨ trap.param = some 3

theorem State.recordFits_faultInfo (s : State) {trap : Trap} (h : trap.ParamLegal) : s.recordFits (s.faultInfo trap) :=
  ⟨rfl, rfl, rfl, h⟩

/-- In a run, taking a fault is the return of the run with the record. -/
theorem State.raise_of_run {s : State} {r : Run} (hr : s.run = some r) (trap : Trap) :
    s.raise trap = State.returned { s with status := .faulted, fault := some (s.faultInfo trap) } r
      (.fault (some (s.faultInfo trap))) :=
  State.endRun_of_run (s := { s with status := .faulted, fault := some (s.faultInfo trap) }) hr _

/-- Settles O35 (60_exceptions.md R220, R222). -/
theorem takingAFaultRecordsIt : Obligations.TakingAFaultRecordsIt := by
  refine ⟨fun s t r hr => ?_, rfl, rfl, rfl, rfl, rfl, rfl⟩
  rw [State.raise_fault, State.raise_of_run hr, State.faultInfo, State.fetchedWord_eq]
  rfl

/-! ## The four results of an instruction -/

/-- From `s` the instruction `i` retires in `t` (47_dispatch_loop.md R182). -/
structure Retires (s : State) (i : Instr) (t : State) : Prop where
  ne_halt : i ≠ .halt
  hasInput : ∀ m, i = .input m → s.inq ≠ []
  run : t.run = s.run.map Run.count
  status : t.status = s.status
  fault : t.fault = s.fault
  replies : t.replies = s.replies
  pc : t.pc = s.pc + i.length ∨
    ∃ a b, (i = .jumpIfTrue a b ∨ i = .jumpIfFalse a b) ∧ s.readable 2 b ∧ t.pc = (s.value 2 b).toInt

/-- What an instruction that answers a next state does to the run: it retires, halts, blocks or faults. -/
inductive ExecResult (s : State) : Instr → State → Prop
  | retired (i : Instr) (t : State) (h : Retires s i t) : ExecResult s i t
  | halted : ExecResult s .halt ({ s with status := .halted }.endRun .halted)
  | blocked (m : Mode) (r : Run) (hw : s.writable 1 m) (hq : s.inq = []) (hr : s.run = some r)
      (hp : r.policy = .streaming) : ExecResult s (.input m) ({ s with status := .blocked }.endRun .blockedOnInput)
  | raised (i : Instr) (trap : Trap) (h : trap.ParamLegal) : ExecResult s i (s.raise trap)

theorem exec_result {i : Instr} {s t : State} (h : exec i s = .next t) : ExecResult s i t := by
  cases exec_cases h with
  | raised _ trap hp => exact .raised i trap hp
  | halted => exact .halted
  | blocked c r hc hq hr hp => exact .blocked c r hc hq hr hp
  | stored _ a b c v _ _ _ hi =>
    obtain rfl | rfl | rfl | rfl := hi <;> exact .retired _ _ ⟨nofun, nofun, rfl, rfl, rfl, rfl, .inl rfl⟩
  | consumed c x rest _ hq => exact .retired _ _ ⟨nofun, fun _ _ => by simp [hq], rfl, rfl, rfl, rfl, .inl rfl⟩
  | appended a | moved a => exact .retired _ _ ⟨nofun, nofun, rfl, rfl, rfl, rfl, .inl rfl⟩
  | jumped _ a b _ hb hi =>
    refine .retired i _ ⟨?_, ?_, rfl, rfl, rfl, rfl, .inr ⟨a, b, hi, hb, rfl⟩⟩ <;> obtain rfl | rfl := hi <;> nofun
  | fellThrough _ a b _ _ hi =>
    obtain rfl | rfl := hi <;> exact .retired _ _ ⟨nofun, nofun, rfl, rfl, rfl, rfl, .inl rfl⟩

/-! ## A step of the core -/

/-- While the core steps, it executes the instruction at `pc`, or takes a fault because there is none. -/
theorem step_of_coreSteps {s t : State} {r : Run} (hr : s.coreSteps r) (h : step s = .next t) :
    (∃ i, s.nextInstr = some i ∧ exec i s = .next t) ∨
      ∃ trap : Trap, s.nextInstr = none ∧ trap.ParamLegal ∧ t = s.raise trap := by
  obtain ⟨hrun, hb, hs⟩ := hr
  cases step_cases h with
  | idle hn | called _ _ hn => cases hrun.symm.trans hn
  | wasFaulted _ _ hf | wasHalted _ _ hf => simp [hf] at hs
  | exhausted r' hr' _ hb' =>
    obtain rfl : r = r' := Option.some.inj (hrun.symm.trans hr')
    cases hb.symm.trans hb'
  | badWord _ trap _ hn ht => exact .inr ⟨trap, hn, ht, rfl⟩
  | executed _ i _ _ hi he => exact .inl ⟨i, hi, he⟩

/-- Settles O34 (47_dispatch_loop.md R182). -/
theorem stepHasFourResults : Obligations.StepHasFourResults := by
  intro s t r hr h
  have hrun := hr.1
  have hfault : ∀ trap : Trap, trap.ParamLegal →
      ∃ f, s.recordFits f ∧
        s.raise trap = State.returned { s with status := .faulted, fault := some f } r (.fault (some f)) :=
    fun trap hp => ⟨s.faultInfo trap, s.recordFits_faultInfo hp, State.raise_of_run hrun trap⟩
  rcases step_of_coreSteps hr h with ⟨i, hi, he⟩ | ⟨trap, -, hp, rfl⟩
  · cases exec_result he with
    | retired _ _ hret =>
      have hcount : t.run = some r.count := by rw [hret.run, hrun]; rfl
      exact .inl ⟨i, hi, hret.ne_halt, hret.hasInput, hcount, hret.status, hret.fault, hret.replies, hret.pc⟩
    | halted => exact .inr (.inl ⟨hi, State.endRun_of_run (s := { s with status := .halted }) hrun _⟩)
    | blocked m r' _ hq hr' hpol =>
      obtain rfl : r = r' := Option.some.inj (hrun.symm.trans hr')
      exact .inr (.inr (.inl ⟨m, hi, hq, hpol, State.endRun_of_run (s := { s with status := .blocked }) hrun _⟩))
    | raised _ trap hp => exact .inr (.inr (.inr (hfault trap hp)))
  · exact .inr (.inr (.inr (hfault trap hp)))

theorem State.nextInstr_of_decode {s : State} {i : Instr} (hp : s.inSpace s.pc)
    (hd : decode (s.mem.read s.pc.toNat) = .ok i) : s.nextInstr = some i := by
  simp [State.nextInstr, State.fetch_of_inSpace hp, hd]

/-- Settles O32 (47_dispatch_loop.md R180). -/
theorem stepRunsTheDecodedInstruction : Obligations.StepRunsTheDecodedInstruction :=
  fun _ _ _ hr hb hs h0 hlt hd => step_of_nextInstr ⟨hr, hb, hs⟩ (State.nextInstr_of_decode ⟨h0, hlt⟩ hd)

/-! ## Which faults an instruction raises -/

/-- The faults the instruction `i` can raise in `s`, and when (60_exceptions.md R221; log 9 for IllegalWriteMode). -/
inductive MayRaise (s : State) (i : Instr) : Trap → Prop
  | operand {trap : Trap} (p : Nat) (hp : trap.param = some p) (h1 : 1 ≤ p) (hle : p ≤ i.modes.length)
      (hk : (trap.kind = .negativeAddress ∨ trap.kind = .capacityExceeded) ∨
        (trap.kind = .illegalWriteMode ∧ i.wf = false)) : MayRaise s i trap
  | exhausted (m : Mode) (r : Run) (hi : i = .input m) (hq : s.inq = []) (hr : s.run = some r)
      (hp : r.policy = .batch) : MayRaise s i { kind := .inputExhausted, param := none }

theorem addressTrap_kind (a : Int) (param : Option Nat) :
    (addressTrap a param).kind = .negativeAddress ∨ (addressTrap a param).kind = .capacityExceeded := by
  unfold addressTrap
  split
  · exact .inl rfl
  · exact .inr rfl

section
variable {s : State} {i : Instr} {p : Nat} {m : Mode}

/-- A parameter that does not resolve raises an address fault, or is a literal to be written. -/
theorem State.operandTrap_kind (s : State) (p : Nat) (m : Mode) :
    ((s.operandTrap p m).kind = .negativeAddress ∨ (s.operandTrap p m).kind = .capacityExceeded) ∨
      (s.inSpace (s.pc + p) ∧ m = .immediate ∧ (s.operandTrap p m).kind = .illegalWriteMode) := by
  unfold State.operandTrap
  split_ifs with hp hm
  · exact .inr ⟨hp, hm, rfl⟩
  · exact .inl (addressTrap_kind _ _)
  · exact .inl (addressTrap_kind _ _)

theorem mayRaise_of_not_readable (h : ¬ s.readable p m) (h1 : 1 ≤ p) (hle : p ≤ i.modes.length) :
    MayRaise s i (s.operandTrap p m) := by
  refine .operand p (s.operandTrap_param p m) h1 hle ((s.operandTrap_kind p m).imp_right ?_)
  rintro ⟨hp, hm, -⟩
  exact absurd ⟨hp, .inl hm⟩ h

theorem mayRaise_of_not_writable (hwf : i.wf = m.writable) (h1 : 1 ≤ p) (hle : p ≤ i.modes.length) :
    MayRaise s i (s.operandTrap p m) := by
  refine .operand p (s.operandTrap_param p m) h1 hle ((s.operandTrap_kind p m).imp_right ?_)
  rintro ⟨-, rfl, hk⟩
  exact ⟨hk, hwf⟩

theorem MayRaise.paramLegal {trap : Trap} (h : MayRaise s i trap) : trap.ParamLegal := by
  cases h with
  | exhausted => exact .inl rfl
  | operand p hp h1 hle =>
    have hp3 : p = 1 ∨ p = 2 ∨ p = 3 := by have := i.length_modes_le; omega
    unfold Trap.ParamLegal
    rw [hp]
    obtain rfl | rfl | rfl := hp3 <;> simp

end

/-- An instruction that changes the status to Faulted has raised one of its faults. -/
theorem exec_raises {i : Instr} {s t : State} (h : exec i s = .next t) (hs : s.status ≠ .faulted)
    (ht : t.status = .faulted) : ∃ trap : Trap, t = s.raise trap ∧ MayRaise s i trap := by
  cases i with
  | add a b c | multiply a b c | lessThan a b c | equals a b c =>
    cases h
    rw [State.storeBinary_eq] at ht ⊢
    split_ifs at ht ⊢ with ha hb hc
    · exact absurd ht hs
    · exact ⟨_, rfl, mayRaise_of_not_writable rfl (by decide) le_rfl⟩
    · exact ⟨_, rfl, mayRaise_of_not_readable hb (by decide) (by simp [Instr.modes])⟩
    · exact ⟨_, rfl, mayRaise_of_not_readable ha (by decide) (by simp [Instr.modes])⟩
  | jumpIfTrue a b | jumpIfFalse a b =>
    cases h
    rw [State.jumpWhen_eq] at ht ⊢
    by_cases ha : s.readable 1 a
    · by_cases hb : s.readable 2 b
      · rw [if_pos ha, if_pos hb] at ht; exact absurd ht hs
      · rw [if_pos ha, if_neg hb]; exact ⟨_, rfl, mayRaise_of_not_readable hb (by decide) le_rfl⟩
    · rw [if_neg ha]; exact ⟨_, rfl, mayRaise_of_not_readable ha (by decide) (by simp [Instr.modes])⟩
  | output a =>
    rw [exec_output] at h
    split_ifs at h with ha <;> cases h
    · exact absurd ht hs
    · exact ⟨_, rfl, mayRaise_of_not_readable ha le_rfl le_rfl⟩
  | adjustBase a =>
    rw [exec_adjustBase] at h
    split_ifs at h with ha <;> cases h
    · exact absurd ht hs
    · exact ⟨_, rfl, mayRaise_of_not_readable ha le_rfl le_rfl⟩
  | halt => cases h; simp at ht
  | input c =>
    by_cases hc : s.writable 1 c
    · cases hq : s.inq with
      | nil =>
        rw [exec_input_of_nil hc hq] at h
        obtain ⟨r, hr, ⟨-, rfl⟩ | ⟨hp, rfl⟩⟩ := State.inputEmpty_eq_next h
        · cases ht
        · exact ⟨_, rfl, .exhausted c r rfl hq hr hp⟩
      | cons x rest => cases (exec_input_of_cons hc hq).symm.trans h; exact absurd ht hs
    · rw [exec_input, if_neg hc] at h
      cases h
      exact ⟨_, rfl, mayRaise_of_not_writable rfl le_rfl le_rfl⟩

/-- Settles O36 (60_exceptions.md R221). -/
theorem instructionsRaiseOnlyTheirFaults : Obligations.InstructionsRaiseOnlyTheirFaults := by
  intro i s t h hs ht
  have hne : i ≠ .halt := by rintro rfl; cases h; simp at ht
  obtain ⟨trap, rfl, hmay⟩ := exec_raises h hs ht
  refine ⟨hne, s.faultInfo trap, s.raise_fault trap, s.recordFits_faultInfo hmay.paramLegal, ?_⟩
  cases hmay with
  | operand p hp h1 hle hk =>
    rcases hk with hk | hk
    · exact .inl ⟨hk, p, hp, h1, hle⟩
    · exact .inr (.inl hk)
  | exhausted m r hi hq hr hp => exact .inr (.inr ⟨rfl, rfl, hq, m, r, hi, hr, hp⟩)

end Sys2Proof.Machine

/-! # The budget of a run, and runs on a Faulted machine (47_dispatch_loop.md sections 2 and 3) -/

namespace Sys2Proof.Machine

/-- When the budget of a run is spent (47_dispatch_loop.md R183). -/
theorem Run.spent_iff {r : Run} : r.spent = true ↔ ∃ b, r.budget = some b ∧ 0 ≤ b ∧ b ≤ (r.executed : Int) := by
  unfold Run.spent
  cases r.budget <;> simp

theorem Run.not_spent_iff {r : Run} :
    r.spent = false ↔ ∀ b, r.budget = some b → 0 ≤ b → (r.executed : Int) < b := by
  rw [← Bool.not_eq_true, Run.spent_iff]
  simp

/-- A spent budget ends the run before anything is fetched. -/
theorem step_of_spent {s : State} {r : Run} (hr : s.run = some r) (hs : s.status = .running ∨ s.status = .blocked)
    (hb : r.spent = true) : step s = .next (s.returned r .budgetExhausted) := by
  rcases hs with hs | hs <;> simp [step, State.turn, hr, State.loopTurn, hs, hb, State.endRun_of_run hr]

/-- In a run a Faulted machine returns the fault before the budget is looked at. -/
theorem step_of_faulted {s : State} {r : Run} (hr : s.run = some r) (hs : s.status = .faulted) :
    step s = .next (s.returned r (.fault s.fault)) := by
  simp [step, State.turn, hr, State.loopTurn, hs, State.endRun_of_run hr]

/-- A run that returns in its first step has put nothing out. -/
theorem State.beginRun_returned {s : State} (hr : s.run = none) (p : Policy) (b : Option Int) (o : RunOutcome) :
    (s.beginRun p b).returned { policy := p, budget := b, executed := 0, mark := s.out.length } o =
      { s with replies := s.replies ++ [.ran o []] } := by
  simp [State.returned, State.beginRun, hr]

/-- A run that never returns replies nothing: each of its steps goes on with the run. -/
theorem State.neverReturns_replies {s : State} (h : s.neverReturns) (n : Nat) :
    (State.after n s).replies = s.replies := by
  induction n generalizing s with
  | zero => rfl
  | succ n ih =>
    obtain ⟨r, hr⟩ := Option.ne_none_iff_exists'.1 (h 0)
    cases ht : step s with
    | fault | refused => simp [State.after, ht]
    | next t =>
      have hafter : ∀ k, State.after (k + 1) s = State.after k t := fun k => by simp [State.after, ht]
      have hnext : t.neverReturns := fun k => hafter k ▸ h (k + 1)
      rw [hafter, ih hnext]
      rcases step_in_run hr ht with hon | ⟨o, hret⟩
      · exact hon.replies
      · exact absurd hret.run (hnext 0)

/-- Settles O37 (47_dispatch_loop.md section 2). -/
theorem budgetIsTestedBeforeEachFetch : Obligations.BudgetIsTestedBeforeEachFetch := by
  refine ⟨fun s r b hr hs hb h0 hle => step_of_spent hr hs (Run.spent_iff.2 ⟨b, hb, h0, hle⟩), fun r hr => ?unspent,
    fun s p rest hr hc hs => ?zero, fun s => State.neverReturns_replies⟩
  case unspent =>
    refine Run.not_spent_iff.2 fun b hb h0 => ?_
    obtain hnone | ⟨b', hb', hlt⟩ := hr
    · cases hnone.symm.trans hb
    · cases hb'.symm.trans hb; omega
  case zero =>
    refine ⟨State.beginRun { s with calls := rest } p (some 0), step_of_call hr hc, ?_⟩
    rw [step_of_spent (State.beginRun_run { s with calls := rest } p (some 0)) hs rfl]
    exact congrArg _ (State.beginRun_returned (s := { s with calls := rest }) hr p (some 0) _)

/-- Settles O39 (47_dispatch_loop.md R189). -/
theorem runOnAFaultedMachineReturnsTheFault : Obligations.RunOnAFaultedMachineReturnsTheFault := by
  intro s p b rest hr hc hs
  refine ⟨State.beginRun { s with calls := rest } p b, step_of_call hr hc, ?_⟩
  rw [step_of_faulted (State.beginRun_run { s with calls := rest } p b) hs]
  exact congrArg _ (State.beginRun_returned (s := { s with calls := rest }) hr p b _)

end Sys2Proof.Machine

/-! # The host's calls (48_host_operations.md R200 to R206) -/

namespace Sys2Proof.Machine

/-! ## create -/

theorem imageOk_iff {cfg : Config} {image : List Int} :
    imageOk cfg image = true ↔ image.length ≤ cfg.addrLimit ∧ ∀ v ∈ image, -2 ^ 63 ≤ v ∧ v ≤ 2 ^ 63 - 1 := by
  simp [imageOk, isI64]

theorem State.create_of_ok {s : State} {image : List Int} (h : imageOk s.cfg image = true) :
    s.create image = { State.fresh s.cfg (image.map (BitVec.ofInt 64)) with
      calls := s.calls, replies := s.replies ++ [.created] } := if_pos h

theorem State.create_of_not_ok {s : State} {image : List Int} (h : ¬ imageOk s.cfg image = true) :
    s.create image = s.reply .refused := if_neg h

/-- The memory of a created machine holds the integers of the image. -/
theorem State.create_mem_read {s : State} {image : List Int} (h : imageOk s.cfg image = true) (a : Nat) :
    ((s.create image).mem.read a).toInt = image.getD a 0 := by
  have himage := State.create_image h
  rw [State.create_of_ok h] at himage ⊢
  change ((Memory.ofImage 0 (image.map (BitVec.ofInt 64))).read a).toInt = _
  change (image.map (BitVec.ofInt 64)).map BitVec.toInt = image at himage
  rw [Memory.read_ofImage, if_pos a.zero_le, a.sub_zero]
  conv_rhs => rw [← himage]
  exact (List.getD_map _ (0 : Word) BitVec.toInt).symm

/-- Settles O53 (48_host_operations.md R200). -/
theorem createMakesTheMachineOrIsRefused : Obligations.CreateMakesTheMachineOrIsRefused := by
  intro s image rest hr hc
  refine ⟨fun hok => ?accepted, fun hbad => ?refused⟩
  case accepted =>
    have hok : imageOk (State.cfg { s with calls := rest }) image = true := imageOk_iff.2 hok
    have hread := State.create_mem_read hok
    have himage := State.create_image hok
    refine ⟨_, step_of_call hr hc, himage, hread, ?_⟩
    rw [State.hostCall, State.create_of_ok hok]
    exact ⟨rfl, rfl, rfl, rfl, rfl, rfl, rfl, rfl, rfl, rfl⟩
  case refused =>
    have hnot : ¬ imageOk s.cfg image = true := mt imageOk_iff.1 hbad
    rw [step_of_call hr hc, State.hostCall, State.create_of_not_ok (s := { s with calls := rest }) hnot]
    rfl

/-- Settles O54 (48_host_operations.md R201, R202). -/
theorem pushQueuesAndDrainEmpties : Obligations.PushQueuesAndDrainEmpties :=
  fun _ _ hr => ⟨fun _ hc => step_of_call hr hc, fun hc => step_of_call hr hc⟩

/-- After a reset every cell holds its value of the image, and 0 beyond it. -/
theorem State.hostReset_mem_read (s : State) (a : Nat) : s.hostReset.mem.read a = s.image.getD a 0 := by
  rw [State.hostReset_mem, Memory.read_ofImage, if_pos a.zero_le, a.sub_zero]

/-- Settles O55 (48_host_operations.md R203). -/
theorem resetReinitialisesAllButLogAndImage : Obligations.ResetReinitialisesAllButLogAndImage := by
  intro s rest hr hc
  exact ⟨_, step_of_call hr hc, State.hostReset_mem_read { s with calls := rest },
    State.hostReset_mem_wf { s with calls := rest }, rfl⟩

/-! ## restore -/

theorem Checkpoint.wf_iff {c : Checkpoint} {limit : Nat} :
    c.wf limit = true ↔ c.addrLimit = limit ∧ c.memorySnapshot.wf ∧ c.memorySnapshot.below limit ∧
      -2 ^ 63 ≤ c.programCounter ∧ c.programCounter ≤ 2 ^ 63 := by
  simp only [Checkpoint.wf, Bool.and_eq_true, decide_eq_true_eq, and_assoc]

/-- A checkpoint of a machine that meets the invariant is one the machine accepts (log 11). -/
theorem State.Inv.checkpoint_wf {s : State} (h : s.Inv) : s.checkpoint.wf s.cfg.addrLimit = true :=
  Checkpoint.wf_iff.2 ⟨rfl, h.memCanonical, h.memBelow, h.pcInRange⟩

theorem State.restore_of_wf {s : State} {c : Checkpoint} (h : c.wf s.cfg.addrLimit = true) :
    s.restore c = s.install c := if_pos h

theorem State.restore_of_not_wf {s : State} {c : Checkpoint} (h : ¬ c.wf s.cfg.addrLimit = true) :
    s.restore c = s.reply .refused := if_neg h

/-- Settles O57 (48_host_operations.md R205, 93_implementation_defined.md V18). -/
theorem restoreInstallsTheCheckpoint : Obligations.RestoreInstallsTheCheckpoint := by
  refine ⟨fun s c rest hr hc hlimit hwf hbelow hlo hhi => ?installed, fun s c rest hr hc hbad => ?refused,
    fun s hinv => hinv.checkpoint_wf⟩
  case installed =>
    have hok : c.wf s.cfg.addrLimit = true := Checkpoint.wf_iff.2 ⟨hlimit, hwf, hlimit ▸ hbelow, hlo, hhi⟩
    rw [step_of_call hr hc, State.hostCall, State.restore_of_wf (s := { s with calls := rest }) hok]
    rfl
  case refused =>
    have hnot : ¬ c.wf s.cfg.addrLimit = true := by
      rw [Checkpoint.wf_iff]
      rintro ⟨hlimit, hwf, hbelow, hlo, hhi⟩
      obtain h | h | h | h | h := hbad
      exacts [h hlimit, h hwf, h hbelow, by omega, by omega]
    rw [step_of_call hr hc, State.hostCall, State.restore_of_not_wf (s := { s with calls := rest }) hnot]
    rfl

/-! ## inspect -/

theorem State.probe_cell_of_inSpace {s : State} {a : Int} (h : s.inSpace a) :
    s.probe (.cell a) = .word (s.mem.read a.toNat) := by
  simp only [State.probe, State.memRead_of_inSpace h]

theorem State.probe_cell_of_not_inSpace {s : State} {a : Int} (h : ¬ s.inSpace a) : s.probe (.cell a) = .refused := by
  simp only [State.probe, State.memRead_of_not_inSpace h]

/-- Settles O58 (48_host_operations.md R206). -/
theorem inspectionChangesNothing : Obligations.InspectionChangesNothing := by
  intro s what rest hr hc
  refine ⟨State.probe { s with calls := rest } what, step_of_call hr hc, ?_, ?_, ?_, ?_, ?_, ?_, ?_, ?_⟩
  · rintro a rfl ha; exact State.probe_cell_of_inSpace (s := { s with calls := rest }) ha
  · rintro a rfl ha; exact State.probe_cell_of_not_inSpace (s := { s with calls := rest }) ha
  all_goals rintro rfl; rfl

end Sys2Proof.Machine

/-! # What writes each part of the state (10_state.md sections 2 to 5) -/

namespace Sys2Proof.Machine

/-! ## Instructions -/

section
variable {i : Instr} {s t : State}

theorem exec_cfg (h : exec i s = .next t) : t.cfg = s.cfg := by
  cases exec_cases h <;> simp

/-- Only the instructions with a write parameter write memory. -/
theorem exec_mem (h : exec i s = .next t) :
    t.mem = s.mem ∨ ∃ a b c,
      i = .add a b c ∨ i = .multiply a b c ∨ i = .lessThan a b c ∨ i = .equals a b c ∨ i = .input c := by
  cases exec_cases h with
  | stored _ a b c _ _ _ _ hi => exact .inr ⟨a, b, c, by tauto⟩
  | consumed c => exact .inr ⟨c, c, c, by simp⟩
  | raised | blocked | appended | jumped | fellThrough | moved | halted => exact .inl (by simp)

theorem exec_rb (h : exec i s = .next t) : t.rb = s.rb ∨ ∃ a, i = .adjustBase a := by
  cases exec_cases h with
  | moved a => exact .inr ⟨a, rfl⟩
  | raised | stored | consumed | blocked | appended | jumped | fellThrough | halted => exact .inl (by simp)

theorem exec_inq (h : exec i s = .next t) : t.inq = s.inq ∨ ∃ c x, i = .input c ∧ s.inq = x :: t.inq := by
  cases exec_cases h with
  | consumed c x rest _ hq => exact .inr ⟨c, x, rfl, hq⟩
  | raised | stored | blocked | appended | jumped | fellThrough | moved | halted => exact .inl (by simp)

/-- The pc is written by an instruction that retires. -/
theorem exec_pc (h : exec i s = .next t) : t.pc = s.pc ∨ Retires s i t := by
  cases exec_result h with
  | retired _ _ hret => exact .inr hret
  | halted | blocked | raised => exact .inl (by simp)

/-- The fault record is written by an instruction that raises. -/
theorem exec_fault (h : exec i s = .next t) :
    t.fault = s.fault ∨ ∃ f, t.fault = some f ∧ s.recordFits f ∧ t.status = .faulted := by
  cases exec_result h with
  | retired _ _ hret => exact .inl hret.fault
  | raised _ trap hp => exact .inr ⟨_, s.raise_fault trap, s.recordFits_faultInfo hp, s.raise_status trap⟩
  | halted | blocked => exact .inl (by simp)

end

/-! ## The host's calls -/

/-- What a host call does: most give a reply or change one thing; `create`, `reset` and `restore` make the machine
anew. -/
inductive CallEffect (s : State) : HostCall → State → Prop
  /-- `save`, `inspect`, and a refused `create` or `restore`. -/
  | replied (c : HostCall) (r : HostReply) : CallEffect s c (s.reply r)
  | pushed (v : Word) : CallEffect s (.pushInput v) (s.pushInput v)
  | opened (p : Policy) (b : Option Int) : CallEffect s (.run p b) (s.beginRun p b)
  | drained : CallEffect s .drainOutput s.drainOutput
  | created (image : List Int) (h : imageOk s.cfg image = true) : CallEffect s (.create image)
      { State.fresh s.cfg (image.map (BitVec.ofInt 64)) with calls := s.calls, replies := s.replies ++ [.created] }
  | wasReset : CallEffect s .reset s.hostReset
  | installed (c : Checkpoint) (h : c.wf s.cfg.addrLimit = true) : CallEffect s (.restore c) (s.install c)

theorem State.hostCall_effect (s : State) (c : HostCall) : CallEffect s c (s.hostCall c) := by
  cases c with
  | create image =>
    rw [State.hostCall]
    by_cases h : imageOk s.cfg image = true
    · rw [State.create_of_ok h]; exact .created image h
    · rw [State.create_of_not_ok h]; exact .replied _ _
  | restore c =>
    rw [State.hostCall]
    by_cases h : c.wf s.cfg.addrLimit = true
    · rw [State.restore_of_wf h]; exact .installed c h
    · rw [State.restore_of_not_wf h]; exact .replied _ _
  | pushInput v => exact .pushed v
  | run p b => exact .opened p b
  | drainOutput => exact .drained
  | reset => exact .wasReset
  | save | inspect _ => exact .replied _ _

/-- A call that makes the machine anew. -/
def HostCall.Renews (c : HostCall) : Prop := c = .reset ∨ (∃ k, c = .restore k) ∨ ∃ image, c = .create image

section
variable {s t : State} {c : HostCall}

theorem CallEffect.cfg (h : CallEffect s c t) : t.cfg = s.cfg := by cases h <;> rfl

theorem CallEffect.mem_rb (h : CallEffect s c t) : (t.mem = s.mem ∧ t.rb = s.rb) ∨ c.Renews := by
  cases h with
  | replied | pushed | opened | drained => exact .inl ⟨rfl, rfl⟩
  | created image => exact .inr (.inr (.inr ⟨image, rfl⟩))
  | wasReset => exact .inr (.inl rfl)
  | installed k => exact .inr (.inr (.inl ⟨k, rfl⟩))

theorem CallEffect.inq (h : CallEffect s c t) :
    t.inq = s.inq ∨ (∃ v, c = .pushInput v ∧ t.inq = s.inq ++ [v]) ∨ (c = .reset ∧ t.inq = []) ∨
      ∃ image, c = .create image ∧ t.inq = [] := by
  cases h with
  | replied | opened | drained | installed => exact .inl rfl
  | pushed v => exact .inr (.inl ⟨v, rfl, rfl⟩)
  | wasReset => exact .inr (.inr (.inl ⟨rfl, rfl⟩))
  | created image => exact .inr (.inr (.inr ⟨image, rfl, rfl⟩))

theorem CallEffect.pc (h : CallEffect s c t) :
    t.pc = s.pc ∨ (c = .reset ∧ t.pc = 0) ∨ (∃ k, c = .restore k ∧ t.pc = k.programCounter) ∨
      ∃ image, c = .create image ∧ t.pc = 0 := by
  cases h with
  | replied | pushed | opened | drained => exact .inl rfl
  | wasReset => exact .inr (.inl ⟨rfl, rfl⟩)
  | installed k => exact .inr (.inr (.inl ⟨k, rfl, rfl⟩))
  | created image => exact .inr (.inr (.inr ⟨image, rfl, rfl⟩))

theorem CallEffect.fault (h : CallEffect s c t) :
    t.fault = s.fault ∨ (c = .reset ∧ t.fault = none) ∨ (∃ k, c = .restore k ∧ t.fault = none) ∨
      ∃ image, c = .create image ∧ t.fault = none := by
  cases h with
  | replied | pushed | opened | drained => exact .inl rfl
  | wasReset => exact .inr (.inl ⟨rfl, rfl⟩)
  | installed k => exact .inr (.inr (.inl ⟨k, rfl, rfl⟩))
  | created image => exact .inr (.inr (.inr ⟨image, rfl, rfl⟩))

theorem CallEffect.status (h : CallEffect s c t) :
    t.status = s.status ∨ (s.status = .blocked ∧ t.status = .running ∧ ∃ v, c = .pushInput v) ∨
      (t.status = .running ∧ c = .reset) ∨ (t.status = .running ∧ ∃ image, c = .create image) ∨
      ∃ k, c = .restore k ∧ t.status = if k.doneFlag then .halted else .running := by
  cases h with
  | replied | opened | drained => exact .inl rfl
  | pushed v =>
    by_cases hs : s.status = .blocked
    · exact .inr (.inl ⟨hs, (s.pushInput_status v).trans (if_pos hs), v, rfl⟩)
    · exact .inl ((s.pushInput_status v).trans (if_neg hs))
  | wasReset => exact .inr (.inr (.inl ⟨rfl, rfl⟩))
  | created image => exact .inr (.inr (.inr (.inl ⟨rfl, image, rfl⟩)))
  | installed k => exact .inr (.inr (.inr (.inr ⟨k, rfl, rfl⟩)))

theorem CallEffect.run (h : CallEffect s c t) (hr : s.run = none) : t.run = s.run ∨ ∃ p b, c = .run p b := by
  cases h with
  | replied | pushed | drained | wasReset | installed => exact .inl rfl
  | opened p b => exact .inr ⟨p, b, rfl⟩
  | created => exact .inl hr.symm

end

/-! ## Steps -/

section
variable {s t : State}

/-- A step changes what the return of a run leaves alone only by executing an instruction, by taking a fault at the
fetch or the decoding, or by the host's next call. -/
theorem step_changes {α : Type} {part : State → α} (hend : ∀ s o, part (s.endRun o) = part s) (h : step s = .next t)
    (hne : part t ≠ part s) :
    (∃ r i, s.coreSteps r ∧ s.nextInstr = some i ∧ exec i s = .next t) ∨
      (∃ r, ∃ trap : Trap, s.coreSteps r ∧ trap.ParamLegal ∧ t = s.raise trap) ∨
      ∃ c rest, s.nextCall = some c ∧ CallEffect { s with calls := rest } c t := by
  cases step_cases h with
  | idle => exact absurd rfl hne
  | wasFaulted | wasHalted | exhausted => exact absurd (hend s _) hne
  | executed r i _ hr hi he => exact .inl ⟨r, i, hr, hi, he⟩
  | badWord r trap hr _ ht => exact .inr (.inl ⟨r, trap, hr, ht, rfl⟩)
  | called c rest hr hc =>
    exact .inr (.inr ⟨c, rest, State.nextCall_of_calls hr hc, State.hostCall_effect { s with calls := rest } c⟩)

/-- Nothing writes ADDR_LIMIT. -/
theorem step_cfg (h : step s = .next t) : t.cfg = s.cfg := by
  by_contra hne
  obtain ⟨_, i, -, -, he⟩ | ⟨_, trap, -, -, rfl⟩ | ⟨c, _, -, hc⟩ := step_changes State.endRun_cfg h hne
  exacts [hne (exec_cfg he), hne (s.raise_cfg trap), hne hc.cfg]

theorem step_mem (h : step s = .next t) (hne : t.mem ≠ s.mem) :
    (∃ r i a b c, s.coreSteps r ∧ s.nextInstr = some i ∧
      (i = .add a b c ∨ i = .multiply a b c ∨ i = .lessThan a b c ∨ i = .equals a b c ∨ i = .input c)) ∨
      ∃ c, s.nextCall = some c ∧ c.Renews := by
  obtain ⟨r, i, hr, hi, he⟩ | ⟨_, trap, -, -, rfl⟩ | ⟨c, _, hn, hc⟩ := step_changes State.endRun_mem h hne
  · obtain ⟨a, b, c, hop⟩ := (exec_mem he).resolve_left hne
    exact .inl ⟨r, i, a, b, c, hr, hi, hop⟩
  · exact absurd (s.raise_mem trap) hne
  · exact .inr ⟨c, hn, hc.mem_rb.resolve_left fun hsame => hne hsame.1⟩

theorem step_rb (h : step s = .next t) (hne : t.rb ≠ s.rb) :
    (∃ r a, s.coreSteps r ∧ s.nextInstr = some (.adjustBase a)) ∨ ∃ c, s.nextCall = some c ∧ c.Renews := by
  obtain ⟨r, i, hr, hi, he⟩ | ⟨_, trap, -, -, rfl⟩ | ⟨c, _, hn, hc⟩ := step_changes State.endRun_rb h hne
  · obtain ⟨a, rfl⟩ := (exec_rb he).resolve_left hne
    exact .inl ⟨r, a, hr, hi⟩
  · exact absurd (s.raise_rb trap) hne
  · exact .inr ⟨c, hn, hc.mem_rb.resolve_left fun hsame => hne hsame.2⟩

/-- The calls that make the machine anew, as the host's next call. -/
theorem HostCall.Renews.nextCall {c : HostCall} (h : c.Renews) (hn : s.nextCall = some c) :
    s.nextCall = some .reset ∨ (∃ c, s.nextCall = some (.restore c)) ∨ ∃ image, s.nextCall = some (.create image) := by
  obtain rfl | ⟨k, rfl⟩ | ⟨image, rfl⟩ := h
  exacts [.inl hn, .inr (.inl ⟨k, hn⟩), .inr (.inr ⟨image, hn⟩)]

/-- A run is opened by the call of it; while it is in progress the core changes it. -/
theorem step_run (h : step s = .next t) (hne : t.run ≠ s.run) :
    (∃ r, s.run = some r) ∨ ∃ p b, s.nextCall = some (.run p b) := by
  cases hr : s.run with
  | some r => exact .inl ⟨r, rfl⟩
  | none =>
    cases step_cases h with
    | idle => exact absurd rfl hne
    | called c rest _ hc =>
      obtain ⟨p, b, rfl⟩ := ((State.hostCall_effect { s with calls := rest } c).run hr).resolve_left hne
      exact .inr ⟨p, b, State.nextCall_of_calls hr hc⟩
    | wasFaulted _ hr' | wasHalted _ hr' | exhausted _ hr' => cases hr.symm.trans hr'
    | badWord _ _ hr' | executed _ _ _ hr' => cases hr.symm.trans hr'.1

end

/-- Settles O46: a part that changes was written by an instruction, by a fault or by the host's next call, and each of
these writes what it writes. -/
theorem stateIsWrittenOnlyByItsWriters : Obligations.StateIsWrittenOnlyByItsWriters := by
  intro s t h
  refine ⟨step_cfg h, fun hne => ?mem, fun hne => ?rb, fun hne => ?inq, fun hne => ?pc, fun hne => ?fault, step_run h⟩
  case mem =>
    obtain hcore | ⟨c, hn, hc⟩ := step_mem h hne
    exacts [.inl hcore, .inr (hc.nextCall hn)]
  case rb =>
    obtain hcore | ⟨c, hn, hc⟩ := step_rb h hne
    exacts [.inl hcore, .inr (hc.nextCall hn)]
  case inq =>
    obtain ⟨r, i, hr, hi, he⟩ | ⟨_, trap, -, -, rfl⟩ | ⟨c, _, hn, hc⟩ := step_changes State.endRun_inq h hne
    · obtain ⟨c, x, rfl, hq⟩ := (exec_inq he).resolve_left hne
      exact .inl ⟨r, c, x, hr, hi, hq⟩
    · exact absurd (s.raise_inq trap) hne
    · obtain ⟨v, rfl, hv⟩ | ⟨rfl, hv⟩ | ⟨image, rfl, hv⟩ := hc.inq.resolve_left hne
      exacts [.inr (.inl ⟨v, hn, hv⟩), .inr (.inr (.inl ⟨hn, hv⟩)), .inr (.inr (.inr ⟨image, hn, hv⟩))]
  case pc =>
    obtain ⟨r, i, hr, hi, he⟩ | ⟨_, trap, -, -, rfl⟩ | ⟨c, _, hn, hc⟩ := step_changes State.endRun_pc h hne
    · have hret := (exec_pc he).resolve_left hne
      have hrun : t.run = some r.count := by rw [hret.run, hr.1]; rfl
      exact .inl ⟨r, i, hr, hi, hret.ne_halt, hrun, hret.pc⟩
    · exact absurd (s.raise_pc trap) hne
    · obtain ⟨rfl, hv⟩ | ⟨k, rfl, hv⟩ | ⟨image, rfl, hv⟩ := hc.pc.resolve_left hne
      exacts [.inr (.inl ⟨hn, hv⟩), .inr (.inr (.inl ⟨k, hn, hv⟩)), .inr (.inr (.inr ⟨image, hn, hv⟩))]
  case fault =>
    obtain ⟨r, i, hr, hi, he⟩ | ⟨r, trap, hr, hp, rfl⟩ | ⟨c, _, hn, hc⟩ := step_changes State.endRun_fault h hne
    · obtain ⟨f, hf, hfits, hst⟩ := (exec_fault he).resolve_left hne
      exact .inl ⟨r, f, hr, hf, hfits, hst⟩
    · exact .inl ⟨r, _, hr, s.raise_fault trap, s.recordFits_faultInfo hp, s.raise_status trap⟩
    · obtain ⟨rfl, hv⟩ | ⟨k, rfl, hv⟩ | ⟨image, rfl, hv⟩ := hc.fault.resolve_left hne
      exacts [.inr (.inl ⟨hn, hv⟩), .inr (.inr (.inl ⟨k, hn, hv⟩)), .inr (.inr (.inr ⟨image, hn, hv⟩))]

/-- Settles O45 (10_state.md R28). -/
theorem statusChangesOnlyByTheseEvents : Obligations.StatusChangesOnlyByTheseEvents := by
  intro s t h hne
  have hraised : ∀ trap : Trap, trap.ParamLegal →
      (s.raise trap).status = .faulted ∧ ∃ f, (s.raise trap).fault = some f ∧ s.recordFits f :=
    fun trap hp => ⟨s.raise_status trap, _, s.raise_fault trap, s.recordFits_faultInfo hp⟩
  obtain ⟨r, i, hr, hi, he⟩ | ⟨r, trap, hr, hp, rfl⟩ | ⟨c, _, hn, hc⟩ := step_changes State.endRun_status h hne
  · cases exec_result he with
    | retired _ _ hret => exact absurd hret.status hne
    | halted => exact .inl ⟨r, hr, .inl ⟨State.endRun_status _ _, hi⟩⟩
    | blocked m r' _ hq hr' hp =>
      obtain rfl : r = r' := Option.some.inj (hr.1.symm.trans hr')
      exact .inl ⟨r, hr, .inr (.inl ⟨State.endRun_status _ _, hp, hq, m, hi⟩)⟩
    | raised _ trap hp => exact .inl ⟨r, hr, .inr (.inr (hraised trap hp))⟩
  · exact .inl ⟨r, hr, .inr (.inr (hraised trap hp))⟩
  · obtain ⟨hs, ht, v, rfl⟩ | ⟨ht, rfl⟩ | ⟨ht, image, rfl⟩ | ⟨k, rfl, ht⟩ := hc.status.resolve_left hne
    · exact .inr (.inl ⟨hs, ht, v, hn⟩)
    · exact .inr (.inr (.inl ⟨ht, hn⟩))
    · exact .inr (.inr (.inr (.inl ⟨ht, image, hn⟩)))
    · exact .inr (.inr (.inr (.inr ⟨k, hn, ht⟩)))

end Sys2Proof.Machine

/-! # The invariant (10_state.md section 8)

The invariant is kept part by part: by the return of a run, by a new status with its fault record, by an instruction
that retires, and by each host call. -/

namespace Sys2Proof.Machine

section
variable {s : State}

/-! ## The status and the return of a run -/

theorem State.Inv.endRun (h : s.Inv) (o : RunOutcome) : (s.endRun o).Inv := by
  rw [State.endRun_eq]
  exact { h with markInLog := nofun, withinBudget := nofun }

/-- A new status keeps the invariant when the fault record goes with it and a Blocked machine waits for input. -/
theorem State.Inv.setStatus (h : s.Inv) {st : Status} {fault : Option FaultInfo} (hf : fault ≠ none ↔ st = .faulted)
    (hfits : ∀ f, fault = some f → s.recordFits f) (hb : st = .blocked → s.waitsForInput) :
    State.Inv { s with status := st, fault := fault } :=
  { h with faultIffFaulted := hf, faultFits := hfits, blockedWaits := hb }

theorem State.Inv.raise (h : s.Inv) {trap : Trap} (hp : trap.ParamLegal) : (s.raise trap).Inv :=
  (h.setStatus (st := .faulted) (fault := some (s.faultInfo trap)) (by simp)
    (fun f hf => Option.some.inj hf ▸ s.recordFits_faultInfo hp) nofun).endRun _

/-- While the core steps no fault is recorded. -/
theorem State.Inv.fault_eq_none (h : s.Inv) {r : Run} (hr : s.coreSteps r) : s.fault = none := by
  have hs : s.status ≠ .faulted := by rcases hr.2.2 with hs | hs <;> simp [hs]
  exact not_not.1 (mt h.faultIffFaulted.1 hs)

theorem State.Inv.halt (h : s.Inv) {r : Run} (hr : s.coreSteps r) :
    ({ s with status := .halted }.endRun .halted).Inv :=
  (h.setStatus (st := .halted) (fault := s.fault) (by simp [h.fault_eq_none hr]) h.faultFits nofun).endRun _

theorem State.Inv.block (h : s.Inv) {r : Run} (hr : s.coreSteps r) (hw : s.waitsForInput) :
    ({ s with status := .blocked }.endRun .blockedOnInput).Inv :=
  (h.setStatus (st := .blocked) (fault := s.fault) (by simp [h.fault_eq_none hr]) h.faultFits fun _ => hw).endRun _

/-! ## Instructions -/

/-- An instruction that retires keeps the invariant when what it writes does: no fault is recorded, the machine does not
wait, and a budget that was not spent is not exceeded by one more instruction. -/
theorem State.Inv.retire (h : s.Inv) {r : Run} (hr : s.coreSteps r) (hs : s.status = .running) {mem : Memory}
    {next : Int} (rb : Word) (inq : List Word) {out : List Word} (hwf : mem.wf) (hbelow : mem.below s.cfg.addrLimit)
    (hpc : -2 ^ 63 ≤ next ∧ next ≤ 2 ^ 63) (hout : s.out <+: out) :
    State.Inv { s with mem := mem, pc := next, rb := rb, inq := inq, out := out, run := s.run.map Run.count } where
  limitLegal := h.limitLegal
  memCanonical := hwf
  memBelow := hbelow
  imageFits := h.imageFits
  pcInRange := hpc
  faultIffFaulted := h.faultIffFaulted
  faultFits f hf := by cases (h.fault_eq_none hr).symm.trans hf
  blockedWaits hb := by cases hs.symm.trans hb
  markInLog r' hr' := by
    obtain ⟨q, hq, rfl⟩ := Option.map_eq_some_iff.1 hr'
    exact (h.markInLog q hq).trans hout.length_le
  withinBudget r' b hr' hb h0 := by
    obtain ⟨q, hq, rfl⟩ := Option.map_eq_some_iff.1 hr'
    obtain rfl : r = q := Option.some.inj (hr.1.symm.trans hq)
    have hlt := Run.not_spent_iff.1 hr.2.1 b hb h0
    rw [Run.count_executed]
    omega

/-- The cell after the last parameter is in the range of the pc (10_state.md R22 c). -/
theorem State.Inv.next_in_range (h : s.Inv) {p : Nat} (hp : s.inSpace (s.pc + p)) :
    -2 ^ 63 ≤ s.pc + (p + 1) ∧ s.pc + (p + 1) ≤ 2 ^ 63 := by
  have hlimit := h.limitLegal
  simp only [Config.wf, Bool.and_eq_true, decide_eq_true_eq] at hlimit
  omega

theorem Word.toInt_in_range (v : Word) : -2 ^ 63 ≤ v.toInt ∧ v.toInt ≤ 2 ^ 63 :=
  ⟨v.le_toInt, by have := v.toInt_lt; omega⟩

/-- On a Blocked machine the core executes an `input` with an empty queue: it blocks again or faults. -/
theorem State.Inv.of_exec_blocked (h : s.Inv) {r : Run} (hr : s.coreSteps r) (hs : s.status = .blocked) {i : Instr}
    {t : State} (hi : s.nextInstr = some i) (he : exec i s = .next t) : t.Inv := by
  have hwait := h.blockedWaits hs
  have ⟨hq, m, hm, hw⟩ := hwait
  obtain rfl : i = .input m := Option.some.inj (hi.symm.trans hm)
  rw [exec_input_of_nil hw hq] at he
  obtain ⟨r', hr', ⟨-, rfl⟩ | ⟨-, rfl⟩⟩ := State.inputEmpty_eq_next he
  · rw [← State.endRun_of_run (s := { s with status := .blocked }) hr']; exact h.block hr hwait
  · exact h.raise (.inl rfl)

theorem State.Inv.of_exec (h : s.Inv) {r : Run} (hr : s.coreSteps r) {i : Instr} {t : State} (hi : s.nextInstr = some i)
    (he : exec i s = .next t) : t.Inv := by
  rcases hr.2.2 with hs | hs
  case inr => exact h.of_exec_blocked hr hs hi he
  have hmem := h.memCanonical
  have hbelow := h.memBelow
  have hout : s.out <+: s.out := List.prefix_rfl
  cases exec_cases he with
  | raised _ trap hp => exact h.raise hp
  | halted => exact h.halt hr
  | blocked m r' hw hq => exact h.block hr ⟨hq, m, hi, hw⟩
  | stored _ a b c v _ _ hc =>
    exact h.retire hr hs s.rb s.inq (Memory.wf_write hmem _ v) (Memory.below_write hbelow (State.target_lt hc) v)
      (h.next_in_range hc.1) hout
  | consumed c x rest hc =>
    exact h.retire hr hs s.rb rest (Memory.wf_write hmem _ x) (Memory.below_write hbelow (State.target_lt hc) x)
      (h.next_in_range hc.1) hout
  | appended a ha => exact h.retire hr hs s.rb s.inq hmem hbelow (h.next_in_range ha.1) (List.prefix_append _ _)
  | jumped _ a b _ hb => exact h.retire hr hs s.rb s.inq hmem hbelow (Word.toInt_in_range _) hout
  | fellThrough _ a b _ hb => exact h.retire hr hs s.rb s.inq hmem hbelow (h.next_in_range hb.1) hout
  | moved a ha => exact h.retire hr hs _ s.inq hmem hbelow (h.next_in_range ha.1) hout

/-! ## The host's calls -/

theorem State.fresh_inv {cfg : Config} {image : List Word} (hcfg : cfg.wf = true)
    (himage : image.length ≤ cfg.addrLimit) : (State.fresh cfg image).Inv where
  limitLegal := hcfg
  memCanonical := Memory.wf_ofImage 0 image
  memBelow := Memory.below_ofImage himage
  imageFits := himage
  pcInRange := by simp [State.fresh]
  faultIffFaulted := by simp [State.fresh]
  faultFits := nofun
  blockedWaits := nofun
  markInLog := nofun
  withinBudget := nofun

/-- Settles O48: the state after reset is the machine created from the empty image. -/
theorem resetStateMeetsTheInvariant : Obligations.ResetStateMeetsTheInvariant :=
  State.fresh_inv (cfg := Config.standard) (image := []) (by decide) (Nat.zero_le _)

theorem State.Inv.pushInput (h : s.Inv) (v : Word) : (s.pushInput v).Inv where
  limitLegal := h.limitLegal
  memCanonical := h.memCanonical
  memBelow := h.memBelow
  imageFits := h.imageFits
  pcInRange := h.pcInRange
  faultIffFaulted := by
    rw [State.pushInput_fault, State.pushInput_status, h.faultIffFaulted]
    split_ifs with hs <;> simp [hs]
  faultFits := h.faultFits
  blockedWaits hb := by
    rw [State.pushInput_status] at hb
    split_ifs at hb with hs
    exact absurd hb hs
  markInLog := h.markInLog
  withinBudget := h.withinBudget

theorem State.Inv.beginRun (h : s.Inv) (p : Policy) (b : Option Int) : (s.beginRun p b).Inv :=
  { h with
    markInLog := fun r hr => by cases hr; exact le_rfl
    withinBudget := fun r c hr _ h0 => by cases hr; exact h0 }

theorem State.Inv.hostReset (h : s.Inv) (hr : s.run = none) : s.hostReset.Inv :=
  { State.fresh_inv h.limitLegal h.imageFits with
    markInLog := fun r hr' => by cases hr.symm.trans hr'
    withinBudget := fun r b hr' => by cases hr.symm.trans hr' }

theorem State.Inv.install (h : s.Inv) {c : Checkpoint} (hc : c.wf s.cfg.addrLimit = true) : (s.install c).Inv := by
  obtain ⟨-, hwf, hbelow, hpc⟩ := Checkpoint.wf_iff.1 hc
  have hst : (s.install c).status ≠ .faulted ∧ (s.install c).status ≠ .blocked := by
    rw [State.install_status]; split <;> simp
  exact { h with
    memCanonical := hwf
    memBelow := hbelow
    pcInRange := hpc
    faultIffFaulted := ⟨fun hf => absurd rfl hf, fun hs => absurd hs hst.1⟩
    faultFits := nofun
    blockedWaits := fun hs => absurd hs hst.2 }

theorem CallEffect.inv {c : HostCall} {t : State} (h : s.Inv) (hr : s.run = none) (hc : CallEffect s c t) : t.Inv := by
  cases hc with
  | replied => exact { h with }
  | pushed v => exact h.pushInput v
  | opened p b => exact h.beginRun p b
  | drained =>
    exact { h with
      markInLog := fun r hr' => by cases hr.symm.trans hr'
      withinBudget := fun r b hr' => by cases hr.symm.trans hr' }
  | created image hok =>
    have himage := (imageOk_iff.1 hok).1
    exact { State.fresh_inv (image := image.map (BitVec.ofInt 64)) h.limitLegal (by simpa using himage) with }
  | wasReset => exact h.hostReset hr
  | installed c hwf => exact h.install hwf

end

/-- Settles O47: by cases over what a step can do. -/
theorem everyStepKeepsTheInvariant : Obligations.EveryStepKeepsTheInvariant := by
  intro s t h hstep
  cases step_cases hstep with
  | idle => exact h
  | called c rest hr _ =>
    have hcalls : State.Inv { s with calls := rest } := { h with }
    exact (State.hostCall_effect { s with calls := rest } c).inv hcalls hr
  | wasFaulted | wasHalted | exhausted => exact h.endRun _
  | badWord _ trap _ _ hp => exact h.raise hp
  | executed r i _ hr hi he => exact h.of_exec hr hi he

end Sys2Proof.Machine

/-! # What an instruction reads (47_dispatch_loop.md R191)

An instruction chooses, from ADDR_LIMIT, memory, `pc`, `rb`, the queue and the policy alone, one update of the state.
Two machines that agree on these therefore make the same update, whatever else they hold. -/

namespace Sys2Proof.Machine

/-! ## Agreement on what the core reads -/

namespace SameToCore
variable {s t : State}

theorem fetch (h : SameToCore s t) : s.fetch = t.fetch := by
  simp only [State.fetch, State.memRead, State.checkAddr, h.cfg, h.mem, h.pc]

theorem faultInfo (h : SameToCore s t) (trap : Trap) : s.faultInfo trap = t.faultInfo trap := by
  simp only [State.faultInfo, State.fetchedWord, h.fetch, h.pc]

theorem fetchParam (h : SameToCore s t) (p : Nat) : s.fetchParam p = t.fetchParam p := by
  simp only [State.fetchParam, State.memRead, State.checkAddr, h.cfg, h.mem, h.pc]

theorem effectiveAddress (h : SameToCore s t) (p : Nat) (m : Mode) (raw : Word) :
    s.effectiveAddress p m raw = t.effectiveAddress p m raw := by
  cases m <;> simp only [State.effectiveAddress, State.checkAddr, h.cfg, h.rb]

theorem val (h : SameToCore s t) (p : Nat) (m : Mode) : s.val p m = t.val p m := by
  simp only [State.val, h.fetchParam]
  cases t.fetchParam p with
  | error _ => rfl
  | ok raw => cases m <;> simp only [State.readOperand, h.effectiveAddress, h.mem]

theorem dst (h : SameToCore s t) (p : Nat) (m : Mode) : s.dst p m = t.dst p m := by
  simp only [State.dst, h.fetchParam, h.effectiveAddress]

theorem resolveRR (h : SameToCore s t) (a b : Mode) : s.resolveRR a b = t.resolveRR a b := by
  simp only [State.resolveRR, h.val]

theorem resolveRRW (h : SameToCore s t) (a b c : Mode) : s.resolveRRW a b c = t.resolveRRW a b c := by
  simp only [State.resolveRRW, h.resolveRR, h.dst]

end SameToCore

/-! ## Updates -/

/-- What the core does to the state in one step, as data. -/
inductive CoreUpdate
  /-- Store and retire. -/
  | store (d : Nat) (v : Word) (next : Int)
  /-- Take the head of the queue, store it and retire. -/
  | consume (rest : List Word) (d : Nat) (v : Word) (next : Int)
  /-- Put a value out and retire. -/
  | append (v : Word) (next : Int)
  /-- Retire. -/
  | jump (next : Int)
  /-- Move the base and retire. -/
  | rebase (rb : Word) (next : Int)
  /-- Halt or block, and return from the run. -/
  | stop (st : Status) (o : RunOutcome)
  /-- Take a fault. -/
  | fault (trap : Trap)
  /-- Return from the run. -/
  | leave (o : RunOutcome)

/-- The state after an update. -/
def CoreUpdate.apply : CoreUpdate → State → State
  | .store d v next, s => (s.memWrite d v).retire next
  | .consume rest d v next, s => ({ s with inq := rest }.memWrite d v).retire next
  | .append v next, s => { s with out := s.out ++ [v] }.retire next
  | .jump next, s => s.retire next
  | .rebase rb next, s => { s with rb := rb }.retire next
  | .stop st o, s => { s with status := st }.endRun o
  | .fault trap, s => s.raise trap
  | .leave o, s => s.endRun o

/-- The instruction makes the same update to both states. -/
def ActsAlike (i : Instr) (s t : State) : Prop :=
  ∃ u : CoreUpdate, exec i s = .next (u.apply s) ∧ exec i t = .next (u.apply t)

section
variable {s t : State}

theorem SameToCore.storeBinary (h : SameToCore s t) (f : Word → Word → Word) (a b c : Mode) :
    ∃ u : CoreUpdate, s.storeBinary f a b c = u.apply s ∧ t.storeBinary f a b c = u.apply t := by
  simp only [State.storeBinary, h.resolveRRW, h.pc]
  cases t.resolveRRW a b c with
  | error trap => exact ⟨.fault trap, rfl, rfl⟩
  | ok v => exact ⟨.store _ _ _, rfl, rfl⟩

theorem SameToCore.jumpWhen (h : SameToCore s t) (cond : Word → Bool) (a b : Mode) :
    ∃ u : CoreUpdate, s.jumpWhen cond a b = u.apply s ∧ t.jumpWhen cond a b = u.apply t := by
  simp only [State.jumpWhen, h.resolveRR, h.pc]
  cases t.resolveRR a b with
  | error trap => exact ⟨.fault trap, rfl, rfl⟩
  | ok v => exact ⟨.jump _, rfl, rfl⟩

/-- On an empty queue `input` looks at the policy of the run, and without a run it stops. -/
theorem SameToCore.inputEmpty (h : SameToCore s t) :
    (∃ u : CoreUpdate, s.inputEmpty = .next (u.apply s) ∧ t.inputEmpty = .next (u.apply t)) ∨
      (s.run = none ∧ s.inputEmpty = .fault .noRunInProgress) := by
  cases hs : s.run with
  | none => exact .inr ⟨rfl, by simp only [State.inputEmpty, hs]⟩
  | some r =>
    obtain ⟨q, ht, hpol⟩ : ∃ q, t.run = some q ∧ q.policy = r.policy :=
      Option.map_eq_some_iff.1 (by rw [← h.policy, hs]; rfl)
    have hblock : ∀ (v : State) (p : Run), v.run = some p → p.policy = .streaming →
        v.inputEmpty = .next ((CoreUpdate.stop .blocked .blockedOnInput).apply v) := fun v p hr hp =>
      (State.inputEmpty_of_streaming hr hp).trans
        (congrArg _ (State.endRun_of_run (s := { v with status := .blocked }) hr _).symm)
    cases hp : r.policy with
    | streaming => exact .inl ⟨_, hblock s r hs hp, hblock t q ht (hpol.trans hp)⟩
    | batch =>
      exact .inl ⟨.fault _, State.inputEmpty_of_batch hs hp, State.inputEmpty_of_batch ht (hpol.trans hp)⟩

/-- An instruction makes the same update to two states that look alike to the core, or it is `input` outside a run. -/
theorem SameToCore.exec (h : SameToCore s t) (i : Instr) :
    ActsAlike i s t ∨ (s.run = none ∧ Machine.exec i s = .fault .noRunInProgress) := by
  cases i with
  | add a b c | multiply a b c | lessThan a b c | equals a b c =>
    obtain ⟨u, hs, ht⟩ := h.storeBinary _ a b c
    exact .inl ⟨u, congrArg _ hs, congrArg _ ht⟩
  | jumpIfTrue a b | jumpIfFalse a b =>
    obtain ⟨u, hs, ht⟩ := h.jumpWhen _ a b
    exact .inl ⟨u, congrArg _ hs, congrArg _ ht⟩
  | halt => exact .inl ⟨.stop .halted .halted, rfl, rfl⟩
  | output a =>
    cases hv : t.val 1 a with
    | error trap =>
      exact .inl ⟨.fault trap, exec_output_of_trap ((h.val 1 a).trans hv), exec_output_of_trap hv⟩
    | ok v =>
      refine .inl ⟨.append v (s.pc + 2), exec_output_of_val ((h.val 1 a).trans hv), ?_⟩
      rw [exec_output_of_val hv, h.pc]; rfl
  | adjustBase a =>
    cases hv : t.val 1 a with
    | error trap =>
      exact .inl ⟨.fault trap, exec_adjustBase_of_trap ((h.val 1 a).trans hv), exec_adjustBase_of_trap hv⟩
    | ok v =>
      refine .inl ⟨.rebase (wrapSum s.rb v) (s.pc + 2), exec_adjustBase_of_val ((h.val 1 a).trans hv), ?_⟩
      rw [exec_adjustBase_of_val hv, h.pc, h.rb]; rfl
  | input c =>
    cases hd : t.dst 1 c with
    | error trap => exact .inl ⟨.fault trap, exec_input_of_trap ((h.dst 1 c).trans hd), exec_input_of_trap hd⟩
    | ok d =>
      have hds := (h.dst 1 c).trans hd
      cases hq : t.inq with
      | nil =>
        rw [ActsAlike, exec_input_of_dst_nil hds (h.inq.trans hq), exec_input_of_dst_nil hd hq]
        exact h.inputEmpty
      | cons x rest =>
        refine .inl ⟨.consume rest d x (s.pc + 2), exec_input_of_dst_cons hds (h.inq.trans hq), ?_⟩
        rw [exec_input_of_dst_cons hd hq, h.pc]; rfl

/-- While the core steps in both states, it makes the same update to both. -/
theorem SameToCore.step (h : SameToCore s t) {r q : Run} (hs : s.coreSteps r) (ht : t.coreSteps q) :
    ∃ u : CoreUpdate, Machine.step s = .next (u.apply s) ∧ Machine.step t = .next (u.apply t) := by
  simp only [Machine.step, State.turn_of_coreSteps hs, State.turn_of_coreSteps ht, State.fetchDecode, h.fetch]
  cases t.fetch with
  | error trap => exact ⟨.fault trap, rfl, rfl⟩
  | ok w =>
    cases hd : decode w with
    | error e => exact ⟨.fault (trapOfDecodeError e), by simp only [hd]; rfl, by simp only [hd]; rfl⟩
    | ok i =>
      simp only [hd]
      exact (h.exec i).resolve_right fun hnone => by cases hs.1.symm.trans hnone.1

/-! ## The same update keeps the agreement -/

theorem SameToCore.retire (h : SameToCore s t) (next : Int) : SameToCore (s.retire next) (t.retire next) := by
  have hcount : ∀ v : State, (v.retire next).run.map Run.policy = v.run.map Run.policy := fun v => by
    rw [State.retire_run, Option.map_map]; rfl
  exact { h with pc := rfl, policy := by rw [hcount, hcount, h.policy] }

theorem SameToCore.memWrite (h : SameToCore s t) (d : Nat) (v : Word) : SameToCore (s.memWrite d v) (t.memWrite d v) :=
  { h with mem := congrArg (·.write d v) h.mem }

theorem SameToCore.endRun (h : SameToCore s t) (o o' : RunOutcome) : SameToCore (s.endRun o) (t.endRun o') := by
  rw [State.endRun_eq, State.endRun_eq]
  exact { h with policy := rfl }

theorem SameToCore.apply (h : SameToCore s t) (u : CoreUpdate) : SameToCore (u.apply s) (u.apply t) := by
  cases u with
  | store d v next => exact (h.memWrite d v).retire next
  | consume rest d v next =>
    have hq : SameToCore { s with inq := rest } { t with inq := rest } := { h with inq := rfl }
    exact (hq.memWrite d v).retire next
  | append v next =>
    have hout : SameToCore { s with out := s.out ++ [v] } { t with out := t.out ++ [v] } := { h with }
    exact hout.retire next
  | jump next => exact h.retire next
  | rebase rb next =>
    have hrb : SameToCore { s with rb := rb } { t with rb := rb } := { h with rb := rfl }
    exact hrb.retire next
  | stop st o =>
    have hst : SameToCore { s with status := st } { t with status := st } := { h with }
    exact hst.endRun o o
  | fault trap =>
    have hf : SameToCore { s with status := .faulted, fault := some (s.faultInfo trap) }
        { t with status := .faulted, fault := some (t.faultInfo trap) } := { h with }
    exact hf.endRun _ _
  | leave o => exact h.endRun o o

/-- The values an update puts out. -/
def CoreUpdate.output : CoreUpdate → List Word
  | .append v _ => [v]
  | _ => []

theorem CoreUpdate.apply_out (u : CoreUpdate) (s : State) : (u.apply s).out = s.out ++ u.output := by
  cases u <;> simp [CoreUpdate.apply, CoreUpdate.output]

/-- The status after an update, from that before it. -/
def CoreUpdate.statusAfter : CoreUpdate → Status → Status
  | .stop st _, _ => st
  | .fault _, _ => .faulted
  | _, st => st

theorem CoreUpdate.apply_status (u : CoreUpdate) (s : State) : (u.apply s).status = u.statusAfter s.status := by
  cases u <;> simp [CoreUpdate.apply, CoreUpdate.statusAfter]

/-- Settles O49 (47_dispatch_loop.md R191). -/
theorem instructionsReadOnlyTheCoreState : Obligations.InstructionsReadOnlyTheCoreState := by
  intro i s t s' h he
  rcases h.exec i with ⟨u, hs, ht⟩ | ⟨-, hstop⟩
  case inr => cases he.symm.trans hstop
  obtain rfl := Host.Outcome.next.inj (he.symm.trans hs)
  refine ⟨u.apply t, u.output, ht, h.apply u, u.apply_out s, u.apply_out t, ?_⟩
  cases u with
  | store | consume | append | jump | rebase => exact .inl ⟨rfl, rfl, rfl, rfl⟩
  | fault trap => exact .inr (.inl ⟨s.raise_status trap, t.raise_status trap, by simp [CoreUpdate.apply, h.faultInfo]⟩)
  | stop st o => exact .inr (.inr (by simp [CoreUpdate.apply]))
  | leave o => exact .inl (by simp [CoreUpdate.apply])

end

end Sys2Proof.Machine

/-! # Two machines in step (47_dispatch_loop.md section 4)

The machine `t.behind log got st` is `t` with a longer past: its log begins with `log`, its host was given `got` before,
and it has the status `st`. Step by step it does what `t` does, as long as the host's calls cannot tell the two
apart. -/

namespace Sys2Proof.Machine

/-- The run of a machine whose log begins with `n` further values. -/
def Run.shift (n : Nat) (r : Run) : Run := { r with mark := n + r.mark }

/-- `t` with `log` put out and `got` given to the host before, and with the status `st`. -/
def State.behind (log : List Word) (got : List HostReply) (st : Status) (t : State) : State :=
  { t with status := st, out := log ++ t.out, replies := got ++ t.replies, run := t.run.map (Run.shift log.length) }

section
variable (log : List Word) (got : List HostReply) (st : Status) (t : State)

theorem State.sameToCore_behind : SameToCore (t.behind log got st) t where
  cfg := rfl
  mem := rfl
  pc := rfl
  rb := rfl
  inq := rfl
  policy := by cases hr : t.run <;> simp [State.behind, hr, Run.shift]

theorem State.retire_behind (next : Int) :
    (t.behind log got st).retire next = (t.retire next).behind log got st := by
  simp only [State.behind, State.retire, Option.map_map]
  rfl

theorem State.endRun_behind (o : RunOutcome) :
    (t.behind log got st).endRun o = (t.endRun o).behind log got st := by
  simp only [State.endRun_eq]
  cases hr : t.run <;> simp [State.behind, hr, Run.shift, List.drop_append]

/-- A past does not change what the core does. -/
theorem CoreUpdate.apply_behind (u : CoreUpdate) :
    u.apply (t.behind log got st) = (u.apply t).behind log got (u.statusAfter st) := by
  cases u with
  | store d v next => exact State.retire_behind log got st (t.memWrite d v) next
  | consume rest d v next => exact State.retire_behind log got st ({ t with inq := rest }.memWrite d v) next
  | jump next => exact State.retire_behind log got st t next
  | rebase rb next => exact State.retire_behind log got st { t with rb := rb } next
  | append v next =>
    have hlog : { t.behind log got st with out := (t.behind log got st).out ++ [v] } =
        State.behind log got st { t with out := t.out ++ [v] } := by simp [State.behind]
    exact (congrArg (·.retire next) hlog).trans (State.retire_behind log got st _ next)
  | stop st' o => exact State.endRun_behind log got st' { t with status := st' } o
  | leave o => exact State.endRun_behind log got st t o
  | fault trap =>
    exact State.endRun_behind log got .faulted { t with status := .faulted, fault := some (t.faultInfo trap) } _

end

/-! ## Calls still to come, and steps that exist -/

theorem exec_calls {i : Instr} {s t : State} (h : exec i s = .next t) : t.calls = s.calls := by
  cases exec_cases h <;> simp

theorem CallEffect.calls {s t : State} {c : HostCall} (h : CallEffect s c t) : t.calls = s.calls := by cases h <;> rfl

/-- A step makes the host's next call or none. -/
theorem step_calls {s t : State} (h : step s = .next t) : t.calls <:+ s.calls := by
  cases step_cases h with
  | idle => exact List.suffix_rfl
  | called c rest _ hc =>
    rw [(State.hostCall_effect { s with calls := rest } c).calls, hc]
    exact List.suffix_cons c rest
  | wasFaulted | wasHalted | exhausted | badWord => simp
  | executed _ _ _ _ _ he => rw [exec_calls he]

/-- With no run and no call nothing happens (log 7). -/
theorem step_of_idle {s : State} (hr : s.run = none) (hc : s.calls = []) : step s = .next s := by
  simp [step, State.turn, hr, hc]

/-- Two machines whose steps keep a relation between them keep it for ever. -/
theorem State.after_related {R : State → State → Prop}
    (hR : ∀ s t, R s t → ∃ s' t', step s = .next s' ∧ step t = .next t' ∧ R s' t') {s t : State} (h : R s t) (n : Nat) :
    R (State.after n s) (State.after n t) := by
  induction n generalizing s t with
  | zero => exact h
  | succ n ih =>
    obtain ⟨s', t', hs, ht, h'⟩ := hR s t h
    simp only [State.after, hs, ht]
    exact ih h'

/-! ## The machine with the longer past keeps in step -/

/-- `st` is the status `st'`, or, where `woken` allows it, Blocked in the place of Running. -/
def ShowsAs (woken : Prop) (st st' : Status) : Prop := st' = st ∨ (woken ∧ st = .blocked ∧ st' = .running)

/-- The call does not tell a machine with the longer past from one without. -/
def HostCall.Blind (log : List Word) (got : List HostReply) (woken : Prop) (c : HostCall) : Prop :=
  ∀ (t : State) (st : Status), ShowsAs woken st t.status →
    ∃ st', (t.behind log got st).hostCall c = (t.hostCall c).behind log got st' ∧
      ShowsAs woken st' (t.hostCall c).status

/-- `s` is `t` with a longer past, and no call to come tells them apart. -/
def InStep (log : List Word) (got : List HostReply) (woken : Prop) (s t : State) : Prop :=
  ∃ st, s = t.behind log got st ∧ ShowsAs woken st t.status ∧ ∀ c ∈ t.calls, c.Blind log got woken

section
variable {log : List Word} {got : List HostReply} {woken : Prop}

theorem ShowsAs.update {st st' : Status} (h : ShowsAs woken st st') (u : CoreUpdate) :
    ShowsAs woken (u.statusAfter st) (u.statusAfter st') := by
  cases u with
  | store | consume | append | jump | rebase | leave => exact h
  | stop | fault => exact .inl rfl

theorem ShowsAs.eq_of_ne_running {st st' : Status} (h : ShowsAs woken st st') (hne : st' ≠ .running) : st = st' := by
  rcases h with h | ⟨-, -, h⟩
  exacts [h.symm, absurd h hne]

/-- Running and Blocked are one to the loop. -/
theorem ShowsAs.steps {st st' : Status} (h : ShowsAs woken st st') (hs : st' = .running ∨ st' = .blocked) :
    st = .running ∨ st = .blocked := by
  rcases h with rfl | ⟨-, h, -⟩
  exacts [hs, .inr h]

/-- A run that returns makes the update `leave`. -/
theorem step_leave {s : State} {r : Run} {o : RunOutcome} (hr : s.run = some r)
    (h : step s = .next (s.returned r o)) : step s = .next ((CoreUpdate.leave o).apply s) :=
  h.trans (congrArg _ (State.endRun_of_run hr o).symm)

/-- In a run both machines make the same update: both return, or the core steps in both. -/
theorem step_behind_of_run {t : State} {st : Status} {r : Run} (hr : t.run = some r) (hst : ShowsAs woken st t.status) :
    ∃ u : CoreUpdate, step (t.behind log got st) = .next (u.apply (t.behind log got st)) ∧
      step t = .next (u.apply t) := by
  have hr' : (t.behind log got st).run = some (r.shift log.length) := by simp [State.behind, hr]
  cases ht : t.status with
  | faulted =>
    have hst : st = .faulted := (hst.eq_of_ne_running (by simp [ht])).trans ht
    exact ⟨.leave (.fault t.fault), step_leave hr' (step_of_faulted hr' hst), step_leave hr (step_of_faulted hr ht)⟩
  | halted =>
    have hst : st = .halted := (hst.eq_of_ne_running (by simp [ht])).trans ht
    exact ⟨.leave .halted, step_leave hr' (step_of_halted hr' hst), step_leave hr (step_of_halted hr ht)⟩
  | running | blocked =>
    have hsteps : t.status = .running ∨ t.status = .blocked := by simp [ht]
    have hsteps' := hst.steps hsteps
    by_cases hb : r.spent = true
    · exact ⟨.leave .budgetExhausted, step_leave hr' (step_of_spent hr' hsteps' hb),
        step_leave hr (step_of_spent hr hsteps hb)⟩
    · have hb := Bool.eq_false_of_not_eq_true hb
      exact (State.sameToCore_behind log got st t).step ⟨hr', hb, hsteps'⟩ ⟨hr, hb, hsteps⟩

/-- A step keeps the two machines in step. -/
theorem InStep.step (s t : State) (h : InStep log got woken s t) :
    ∃ s' t', Machine.step s = .next s' ∧ Machine.step t = .next t' ∧ InStep log got woken s' t' := by
  obtain ⟨st, rfl, hst, hblind⟩ := h
  have hkeep : ∀ t', Machine.step t = .next t' → ∀ c ∈ t'.calls, c.Blind log got woken :=
    fun t' h c hc => hblind c ((step_calls h).subset hc)
  cases hr : t.run with
  | some r =>
    obtain ⟨u, hs, ht⟩ := step_behind_of_run (log := log) (got := got) hr hst
    exact ⟨_, _, hs, ht, _, u.apply_behind log got st t, (u.apply_status t).symm ▸ hst.update u, hkeep _ ht⟩
  | none =>
    have hr' : (t.behind log got st).run = none := by simp [State.behind, hr]
    cases hc : t.calls with
    | nil => exact ⟨_, _, step_of_idle hr' hc, step_of_idle hr hc, st, rfl, hst, hblind⟩
    | cons c rest =>
      obtain ⟨st', heq, hst'⟩ := hblind c (by simp [hc]) { t with calls := rest } st hst
      have ht := step_of_call hr hc
      exact ⟨_, _, (step_of_call hr' hc).trans (congrArg _ heq), ht, st', rfl, hst', hkeep _ ht⟩

end

/-! ## Reset and rerun -/

/-- A push or a run does not look at what came before. -/
theorem HostCall.blind_of_feedsOrRuns (log : List Word) (got : List HostReply) {c : HostCall}
    (hc : c.feedsOrRuns = true) : c.Blind log got False := by
  intro t st hst
  obtain rfl : t.status = st := hst.resolve_right fun h => h.1
  cases c with
  | pushInput v => exact ⟨_, rfl, .inl rfl⟩
  | run p b => exact ⟨t.status, by simp [State.hostCall, State.beginRun, State.behind, Run.shift], .inl rfl⟩
  | create | drainOutput | reset | save | restore | inspect => cases hc

/-- Settles O51: the machine after reset is the fresh one with the log and the replies there were. -/
theorem resetThenRerunReproducesTheRun : Obligations.ResetThenRerunReproducesTheRun := by
  intro s cs n hr hcs
  have hstart : InStep s.out s.replies False { s.hostReset with calls := cs }
      { State.fresh s.cfg s.image with calls := cs } :=
    ⟨.running, by simp [State.behind, State.hostReset, State.fresh, hr], .inl rfl,
      fun c hc => HostCall.blind_of_feedsOrRuns s.out s.replies (hcs c hc)⟩
  obtain ⟨st, heq, hst, -⟩ := State.after_related InStep.step hstart n
  have hst : st = _ := (hst.resolve_right fun h => h.1).symm
  dsimp only
  rw [heq]
  exact ⟨rfl, rfl, rfl, hst, rfl, rfl, rfl, rfl⟩

/-! ## Save and restore -/

/-- With no past but its status, a machine differs in its status alone. -/
theorem State.behind_nil (st : Status) (t : State) : t.behind [] [] st = { t with status := st } := by
  have hshift : Run.shift 0 = id := funext fun r => by simp [Run.shift]
  simp [State.behind, hshift]

/-- Blocked or Running, no call but the inspection of the status tells. -/
theorem HostCall.blind_of_ne_inspectStatus {c : HostCall} (hc : c ≠ .inspect .status) : c.Blind [] [] True := by
  intro t st hst
  simp only [State.behind_nil]
  cases c with
  | create image =>
    simp only [State.hostCall, State.create]
    split
    · exact ⟨_, rfl, .inl rfl⟩
    · exact ⟨_, rfl, hst⟩
  | restore c =>
    simp only [State.hostCall, State.restore]
    split
    · exact ⟨_, rfl, .inl rfl⟩
    · exact ⟨_, rfl, hst⟩
  | pushInput v =>
    refine ⟨if st = .blocked then .running else st, rfl, .inl ?_⟩
    rcases hst with h | ⟨-, h, h'⟩
    · exact (t.pushInput_status v).trans (by rw [h])
    · exact (t.pushInput_status v).trans (by simp [h, h'])
  | save =>
    have hdone : State.checkpoint { t with status := st } = t.checkpoint := by
      rcases hst with rfl | ⟨-, h, h'⟩
      · rfl
      · simp [State.checkpoint, h, h']
    exact ⟨st, by rw [State.hostCall, State.save, hdone]; rfl, hst⟩
  | inspect what =>
    refine ⟨st, ?_, hst⟩
    cases what with
    | status => exact absurd rfl hc
    | cell | pc | rb | fault | inq | out => rfl
  | run | drainOutput => exact ⟨st, rfl, hst⟩
  | reset => exact ⟨.running, rfl, .inl rfl⟩

/-- Saved and restored, a machine that is not Faulted is as it was, but that Blocked becomes Running. -/
theorem State.Inv.restore_checkpoint {s : State} (h : s.Inv) (hs : s.status ≠ .faulted) :
    s = (s.restore s.checkpoint).behind [] [] s.status ∧ ShowsAs True s.status (s.restore s.checkpoint).status := by
  have hf : s.fault = none := not_not.1 (mt h.faultIffFaulted.1 hs)
  rw [State.restore_of_wf h.checkpoint_wf, State.behind_nil]
  refine ⟨?_, ?_⟩
  · conv_rhs => rw [State.install, ← hf]
    rfl
  · rw [State.install_status, State.checkpoint]
    cases hst : s.status with
    | running | halted => exact .inl rfl
    | blocked => exact .inr ⟨trivial, rfl, rfl⟩
    | faulted => exact absurd hst hs

/-- Settles O50: the two machines keep in step, and at most their status differs. -/
theorem saveThenRestoreIsTransparent : Obligations.SaveThenRestoreIsTransparent := by
  intro s n hinv hr hs hcalls
  obtain ⟨heq, hshows⟩ := hinv.restore_checkpoint hs
  have hstart : InStep [] [] True s (s.restore s.checkpoint) := by
    refine ⟨s.status, heq, hshows, fun c hc => HostCall.blind_of_ne_inspectStatus ?_⟩
    rintro rfl
    rw [heq] at hcalls
    exact hcalls hc
  obtain ⟨st, heq, hst, -⟩ := State.after_related InStep.step hstart n
  rw [State.behind_nil] at heq
  dsimp only
  rw [heq]
  refine ⟨rfl, rfl, rfl, rfl, rfl, rfl, rfl, rfl, ?_⟩
  rcases hst with h | ⟨-, h, h'⟩
  · rw [h]
  · simp [h, h']

end Sys2Proof.Machine

/-! # The placed instruction (log 6) -/

namespace Sys2Proof.Machine

/-- A store elsewhere is not seen by the fetch. -/
theorem State.fetch_memWrite_other {s : State} {a : Nat} (ha : s.inSpace s.pc → s.pc.toNat ≠ a) (v : Word) :
    (s.memWrite a v).fetch = s.fetch := by
  by_cases hp : s.inSpace s.pc
  · rw [State.fetch_of_inSpace hp, State.fetch_of_inSpace (s := s.memWrite a v) hp]
    exact congrArg _ (Memory.read_write_other s.mem (ha hp) v)
  · rw [State.fetch_of_not_inSpace hp, State.fetch_of_not_inSpace (s := s.memWrite a v) hp]; rfl

/-- Cells placed beyond `pc` leave the instruction word alone. -/
theorem State.placeCells_fetch (vs : List Word) (s : State) {k : Nat} (hk : 0 < k) :
    (s.placeCells k vs).fetch = s.fetch := by
  induction vs generalizing s k with
  | nil => rfl
  | cons v vs ih =>
    rw [State.placeCells, ih _ (Nat.succ_pos k)]
    by_cases hin : s.inSpace (s.pc + k)
    · rw [State.checkAddr_of_inSpace hin]
      exact State.fetch_memWrite_other (fun hp => by omega) v
    · rw [State.checkAddr_of_not_inSpace hin]

/-- The first of the placed cells is the word that is fetched. -/
theorem State.placeCells_fetch_first {s : State} (hwf : s.mem.wf) (hp : s.inSpace s.pc) (v : Word) (vs : List Word) :
    (s.placeCells 0 (v :: vs)).fetch = .ok v := by
  have hp0 : s.inSpace (s.pc + (0 : Nat)) := by simpa using hp
  rw [State.placeCells, State.checkAddr_of_inSpace hp0, State.placeCells_fetch vs _ Nat.one_pos]
  simpa using State.fetch_memWrite_pc hp hwf v

theorem State.runForFetch_not_spent (s : State) : s.runForFetch.spent = false := by
  unfold State.runForFetch
  cases s.run with
  | none => rfl
  | some r => cases hb : r.spent <;> simp [hb]; rfl

/-- In a machine made ready to fetch the core steps. -/
theorem State.readyToFetch_coreSteps (s : State) : s.readyToFetch.coreSteps s.runForFetch := by
  have hb := s.runForFetch_not_spent
  cases hs : s.status <;> simp [State.readyToFetch, hs, State.coreSteps, hb]

theorem State.readyToFetch_fetch (s : State) : s.readyToFetch.fetch = s.fetch := by
  unfold State.readyToFetch
  split <;> rfl

/-- Settles O59. -/
theorem placedWordIsExecutedNext : Obligations.PlacedWordIsExecutedNext := by
  intro s nbits w i hwf hp hd
  have hfetch : (s.withFetchWord nbits w).fetch = .ok (tableCell nbits w 0) :=
    (State.readyToFetch_fetch _).trans (State.placeCells_fetch_first hwf hp _ _)
  have hdecode : decode (tableCell nbits w 0) = .ok i := by
    unfold decodeTableWord at hd
    split at hd
    · cases hd; assumption
    · cases hd
  refine step_of_nextInstr (State.readyToFetch_coreSteps _) ?_
  simp [State.nextInstr, hfetch, hdecode]

end Sys2Proof.Machine

/-! # Several machines (60_exceptions.md R236) -/

namespace Sys2Proof.Machine

/-! ## Steps and fresh output -/

/-- A step of the system is a step of one machine in its place. -/
theorem System.stepAt_cases {sys sys' : System} {i : Nat} (h : sys.stepAt i = .next sys') :
    (sys[i]? = none ∧ sys' = sys) ∨
      ∃ m t, sys[i]? = some m ∧ step m.machine = .next t ∧ sys' = sys.set i { m with machine := t } := by
  unfold System.stepAt at h
  cases hm : sys[i]? with
  | none => rw [hm] at h; cases h; exact .inl ⟨rfl, rfl⟩
  | some m =>
    rw [hm] at h
    cases ht : step m.machine with
    | next t => simp only [ht] at h; cases h; exact .inr ⟨m, t, rfl, ht, rfl⟩
    | fault | refused => simp only [ht] at h; cases h

/-- Of a machine whose last reply is all that is new, `out_new` of that reply is fresh. -/
theorem Member.fresh_of_last {m : Member} {pre : List HostReply} {r : HostReply} (hr : m.machine.replies = pre ++ [r])
    (ht : m.taken = pre.length) : m.fresh = outNewOf r := by
  simp [Member.fresh, hr, ht]

/-- Only what a run returns is output. -/
theorem outNewOf_eq_nil {r : HostReply} (h : ∀ o new, r ≠ .ran o new) : outNewOf r = [] := by
  cases r with
  | ran o new => exact absurd rfl (h o new)
  | created | refused | drained | saved | word | integer | statusIs | faultIs | words => rfl

/-! ## Carrying -/

section
variable {sys : System} {i j k : Nat} {m n : Member}

theorem System.getElem?_carry (hi : sys[i]? = some m) (hj : sys[j]? = some n) (k : Nat) :
    (sys.carry i j)[k]? =
      (if i = k then sys[k]?.map Member.take else sys[k]?).map fun q =>
        if j = k then q.callAll (m.fresh.map .pushInput) else q := by
  simp only [System.carry, hi, hj, List.getElem?_modify, System.getElem?_take]
  by_cases hjk : j = k <;> simp [hjk]

theorem System.set_eq_self (hi : sys[i]? = some m) : sys.set i m = sys := by
  obtain ⟨hlt, rfl⟩ := List.getElem?_eq_some_iff.1 hi
  exact List.set_getElem_self hlt

theorem System.modify_eq_self {f : Member → Member} (hi : sys[i]? = some m) (hf : f m = m) : sys.modify i f = sys := by
  rw [List.modify_eq_set_getElem?, hi]
  change sys.set i (f m) = sys
  rw [hf, System.set_eq_self hi]

/-- Where nothing is fresh, carrying leaves the machines as they are. -/
theorem System.carry_of_taken (hi : sys[i]? = some m) (ht : m.taken = m.machine.replies.length) (k : Nat) :
    sys.carry i k = sys := by
  have htake : sys.take i = sys := System.modify_eq_self hi (by rw [Member.take, ← ht])
  unfold System.carry
  rw [hi]
  cases hk : sys[k]? with
  | none => rfl
  | some q =>
    simp only [htake, Member.fresh_of_taken ht, List.map_nil]
    exact System.modify_eq_self hk (by simp [Member.callAll])

/-- What was carried or kept is dealt with. -/
theorem System.taken_carry (hi : sys[i]? = some m) (hj : sys[j]? = some n) {q : Member}
    (hq : (sys.carry i j)[i]? = some q) : q.taken = q.machine.replies.length := by
  rw [System.getElem?_carry hi hj, if_pos rfl, hi] at hq
  cases hq
  simp only
  split <;> rfl

end

/-! ## Pushes arrive, and deadlock -/

theorem State.after_pushes (vs : List Word) {s : State} {rest : List HostCall} (hr : s.run = none)
    (hc : s.calls = vs.map .pushInput ++ rest) :
    (State.after vs.length s).inq = s.inq ++ vs ∧ (State.after vs.length s).calls = rest ∧
      (State.after vs.length s).run = none := by
  induction vs generalizing s with
  | nil => exact ⟨by simp [State.after], by simpa [State.after] using hc, hr⟩
  | cons v vs ih =>
    have hstep := step_of_call hr hc
    obtain ⟨hq, hcalls, hrun⟩ := ih (s := State.pushInput { s with calls := vs.map .pushInput ++ rest } v) hr rfl
    simp only [List.length_cons, State.after]
    rw [hstep]
    exact ⟨hq.trans (by simp), hcalls, hrun⟩

theorem System.deadlocked_iff {sys : System} :
    sys.deadlocked = true ↔ ∀ m ∈ sys, m.machine.status = .blocked ∧ m.machine.run = none ∧ m.machine.calls = [] ∧
      m.fresh = [] := by
  simp [System.deadlocked, and_assoc]

/-- A streaming run on a machine that waits for input returns in its first step. -/
theorem State.waiting_run_returns {s : State} {r : Run} (hr : s.run = some r) (hs : s.status = .blocked)
    (hw : s.waitsForInput) (hp : r.policy = .streaming) : ∃ o, step s = .next (s.returned r o) := by
  obtain ⟨hq, m, hm, hwr⟩ := hw
  by_cases hb : r.spent = true
  · exact ⟨_, step_of_spent hr (.inr hs) hb⟩
  · have hsteps : s.coreSteps r := ⟨hr, Bool.eq_false_of_not_eq_true hb, .inr hs⟩
    have hsame : { s with status := .blocked } = s := by rw [← hs]
    refine ⟨.blockedOnInput, ?_⟩
    rw [step_of_nextInstr hsteps hm, exec_input_of_nil hwr hq, State.inputEmpty_of_streaming hr hp, hsame]

theorem State.after_two_of_waiting {s : State} (hr : s.run = none) (hs : s.status = .blocked) (hw : s.waitsForInput)
    (hc : s.calls = []) (b : Option Int) :
    ∃ o, State.after 2 { s with calls := [.run .streaming b] } = { s with replies := s.replies ++ [.ran o []] } := by
  have hopen := step_of_call (s := { s with calls := [.run .streaming b] }) hr rfl
  have hback : { { s with calls := [.run .streaming b] } with calls := [] } = s := by rw [← hc]
  rw [hback] at hopen
  obtain ⟨o, ho⟩ := State.waiting_run_returns (s.beginRun_run .streaming b) hs hw rfl
  refine ⟨o, ?_⟩
  simp only [State.after, hopen, State.hostCall, ho]
  exact State.beginRun_returned hr _ _ _

/-- Settles O60, clause by clause from the lemmas on one operation each. -/
theorem machinesShareNothing : Obligations.MachinesShareNothing := by
  refine ⟨fun sys sys' i h => ?step, fun m pre o new => Member.fresh_of_last, fun m reply ht => ?reply,
    fun m => Member.fresh_of_taken, fun sys i m hi => ?take, fun sys i j k m n hi hj => ?once,
    fun sys i j m n hi hj => ?carry, fun sys i c m hi => ?call, fun s vs rest => State.after_pushes vs,
    fun sys i hdead => ?stuck, fun sys m b hdead hm hinv => ?waits⟩
  case step =>
    obtain ⟨hnone, rfl⟩ | ⟨m, t, hm, ht, rfl⟩ := System.stepAt_cases h
    · exact ⟨fun _ _ => rfl, fun m hm => by cases hnone.symm.trans hm⟩
    · refine ⟨fun j hj => List.getElem?_set_ne hj.symm, fun m' hm' => ?_⟩
      obtain rfl : m = m' := Option.some.inj (hm.symm.trans hm')
      exact ⟨t, ht, List.getElem?_set_self (List.getElem?_eq_some_iff.1 hm).1⟩
  case reply =>
    rw [Member.fresh_reply ht]
    refine ⟨?_, fun hr => by rw [outNewOf_eq_nil hr, List.append_nil]⟩
    rintro o new rfl
    rfl
  case take =>
    refine ⟨?_, fun k hk => ?_⟩
    · rw [System.getElem?_take, if_pos rfl, hi]; rfl
    · rw [System.getElem?_take, if_neg hk.symm]
  case once =>
    have htaken : ∀ q, (sys.carry i j)[i]? = some q → q.taken = q.machine.replies.length :=
      fun q => System.taken_carry hi hj
    obtain ⟨q, hq⟩ : ∃ q, (sys.carry i j)[i]? = some q := ⟨_, by rw [System.getElem?_carry hi hj, if_pos rfl, hi]; rfl⟩
    exact ⟨fun q hq => Member.fresh_of_taken (htaken q hq), System.carry_of_taken hq (htaken q hq) k⟩
  case carry =>
    refine ⟨?_, fun hij => ?_, fun k hki hkj => ?_⟩
    · rw [System.getElem?_carry hi hj, hj]
      by_cases hij : i = j
      · subst hij
        obtain rfl : m = n := Option.some.inj (hi.symm.trans hj)
        simp [Member.callAll]
      · simp [Member.callAll, hij, Ne.symm hij]
    · simp [System.getElem?_carry hi hj, hi, hij.symm, Member.take]
    · simp [System.getElem?_carry hi hj, hki.symm, hkj.symm]
  case call =>
    refine ⟨?_, fun k hk => ?_⟩
    · rw [System.getElem?_call, if_pos rfl, hi]; rfl
    · rw [System.getElem?_call, if_neg hk.symm]
  case stuck =>
    cases hm : sys[i]? with
    | none => simp [System.stepAt, hm]
    | some m =>
      obtain ⟨-, hr, hc, -⟩ := System.deadlocked_iff.1 hdead m (List.mem_of_getElem? hm)
      exact (System.stepAt_eq hm (step_of_idle hr hc)).trans (congrArg _ (System.set_eq_self hm))
  case waits =>
    obtain ⟨hs, hr, hc, -⟩ := System.deadlocked_iff.1 hdead m hm
    exact State.after_two_of_waiting hr hs (hinv.blockedWaits hs) hc b

end Sys2Proof.Machine
